-- ==== Sys2Proof/Word.lean ====
section
/-! DEFINITION. The plain types of FWU-p34: words, characters, command words, values (00_scope.md R10, R13 to R15). -/

namespace Sys2Proof

/-- A word: one 64-bit unsigned integer (R10, R13). Bit 63 is its most significant bit. -/
abbrev Word := BitVec 64

/-- A character is an 8-bit code (R15); a byte of a decoded string has the same type. -/
abbrev Code := BitVec 8

/-- A string is a finite sequence of characters, first character first (R15). -/
abbrev Str := List Code

/-- A command word, one beat of `cmd` (30_encoding.md R70). -/
abbrev CmdWord := BitVec 32

/-- Storage for the payload of a `hin` or `hout` beat, as wide as the widest instantiation's bus (LANES = 16). The bus
itself has `Lanes.dataWidth` bits (10_state.md R41); a beat in a queue holds 0 above them (log entry 11). -/
abbrev LaneBus := BitVec 128

/-- A word array, word 0 (most significant) first (R14). That a register's array has N words is an invariant
of the state (10_state.md R30), not a part of the type. -/
abbrev Value := List Word

/-- `MAX64` = 2^64 - 1, "the maximum representable 64-bit value" (R13). -/
def max64 : Word := 0xFFFF_FFFF_FFFF_FFFF#64

/-- `ZERO_V`: the array of `n` words with every word 0 (R14). -/
def zeroV (n : Nat) : Value := List.replicate n 0#64

end Sys2Proof
end

