-- ==== Sys2Proof/Config.lean ====
section
/-! DEFINITION. The instantiation constants of the block (00_scope.md R9 to R12; 92_eei_decisions.md D2, D3, D5, D13 to D16). -/

namespace Sys2Proof

/-- LANES, the hex characters per beat: 1, 2, 4, 8 or 16 (R11(b)). -/
inductive Lanes
  | one | two | four | eight | sixteen
  deriving DecidableEq, Repr

/-- The number LANES names. -/
def Lanes.count : Lanes → Nat
  | .one => 1
  | .two => 2
  | .four => 4
  | .eight => 8
  | .sixteen => 16

/-- The width of `hin_data` and `hout_data`: 8 * LANES bits (10_state.md R41). -/
def Lanes.dataWidth (l : Lanes) : Nat := 8 * l.count

/-- The width c of `hin_count` and `hout_count`: log2(LANES) + 1 bits (10_state.md R41). -/
def Lanes.countWidth : Lanes → Nat
  | .one => 1
  | .two => 2
  | .four => 3
  | .eight => 4
  | .sixteen => 5

/-- CARRY_RULE (R12, 43_arithmetic.md R121). -/
inductive CarryRule
  /-- The document's operative formula, the default. -/
  | sumEqMax
  /-- The document's stated contract. -/
  | exactCarry
  deriving DecidableEq, Repr

/-- BORROW_RULE (R12, 43_arithmetic.md R131). -/
inductive BorrowRule
  /-- The document's operative formula, the default. -/
  | topBit
  /-- The document's stated contract. -/
  | exactBorrow
  deriving DecidableEq, Repr

/-- CHUNK_RULE (R12, 41_hex_decode.md R100). -/
inductive ChunkRule
  /-- The document's operative formula, the default. -/
  | fromStart
  /-- The document's stated contract. -/
  | fromEnd
  deriving DecidableEq, Repr

/-- RENDER_RULE (R12, 42_hex_encode.md R111). -/
inductive RenderRule
  /-- The document's operative formula, the default. -/
  | skipAllZero
  /-- The document's stated contract. -/
  | skipLeadingZero
  deriving DecidableEq, Repr

/-- One instantiation of the block. The four behaviour parameters are independent fields (R12). -/
structure Config where
  /-- N, the words of every value (R9). -/
  n          : Nat
  lanes      : Lanes
  carryRule  : CarryRule
  borrowRule : BorrowRule
  chunkRule  : ChunkRule
  renderRule : RenderRule
  deriving DecidableEq, Repr

/-- The bounds of N, 1 <= N <= 65536 (R9). The bounds of the other fields are in their types. -/
abbrev Config.wf (c : Config) : Prop := 1 ≤ c.n ∧ c.n ≤ 65536

/-- The profile LITERAL: all four defaults (R12). -/
def Config.literal (n : Nat) (lanes : Lanes) : Config :=
  ⟨n, lanes, .sumEqMax, .topBit, .fromStart, .skipAllZero⟩

/-- The profile CONTRACT: all four alternatives (R12). -/
def Config.contract (n : Nat) (lanes : Lanes) : Config :=
  ⟨n, lanes, .exactCarry, .exactBorrow, .fromEnd, .skipLeadingZero⟩

/-- The instantiation of `State.reset`: N = 12 and LANES = 1 are DESIGN CHOICES (log entry 1; the spec leaves
both open), the four rules are the spec's defaults (R12). No statement rests on it: statements hold for every
`Config` a state holds. -/
def Config.default : Config := Config.literal 12 .one

end Sys2Proof
end

