-- ==== Sys2Proof/Syntax.lean ====
section
/-! DEFINITION. The seven commands (30_encoding.md R75, opcode_table.json), one constructor per row. -/

namespace Sys2Proof

/-- A value register index, V0 to V3 (10_state.md R30, 30_encoding.md R71). -/
inductive Reg
  | v0 | v1 | v2 | v3
  deriving DecidableEq, Repr

/-- A command with the fields its row uses (30_encoding.md R76). `idx` is the 16-bit IDX field (R72). -/
inductive Instr
  /-- ZERO: V[rd] <- ZERO_V (40_construction.md R91). -/
  | zero (rd : Reg)
  /-- PARSE: decode one hex packet into V[rd] (41_hex_decode.md R103). -/
  | parse (rd : Reg)
  /-- RENDER: encode V[ra] as one hex packet (42_hex_encode.md R113). -/
  | render (ra : Reg)
  /-- ADD: V[rd] <- V[ra] + V[rb] (43_arithmetic.md R122). -/
  | add (rd ra rb : Reg)
  /-- SUB: V[rd] <- V[ra] - V[rb] (43_arithmetic.md R132). -/
  | sub (rd ra rb : Reg)
  /-- RDW: read word idx of V[ra] to the response (40_construction.md R92). -/
  | rdw (ra : Reg) (idx : BitVec 16)
  /-- WRW: write word idx of V[rd] from `din` (40_construction.md R93). -/
  | wrw (rd : Reg) (idx : BitVec 16)
  deriving DecidableEq, Repr

end Sys2Proof
end

