-- ==== Sys2Proof/WellFormed.lean ====
section
/-! DEFINITION. When a command is legal on a block of N words: the "also requires" column of 30_encoding.md R75. -/

namespace Sys2Proof

/-- RDW and WRW require idx < N (R75, R77(c)); every other command is legal as it stands. -/
def Instr.wellFormed (n : Nat) : Instr → Bool
  | .zero _ => true
  | .parse _ => true
  | .render _ => true
  | .add _ _ _ => true
  | .sub _ _ _ => true
  | .rdw _ idx => decide (idx.toNat < n)
  | .wrw _ idx => decide (idx.toNat < n)

end Sys2Proof
end

