-- ==== Sys2Proof/Decode.lean ====
section
/-! DEFINITION. Decoding and encoding command words (30_encoding.md R70 to R79), and the assembler text of R80. -/

namespace Sys2Proof

/-! ## Register fields (R71) -/

/-- The index that selects a register. -/
def Reg.bits : Reg → BitVec 2
  | .v0 => 0#2
  | .v1 => 1#2
  | .v2 => 2#2
  | .v3 => 3#2

/-- Each value of a 2-bit register field selects V0 to V3 directly (R71). -/
def Reg.ofBits (b : BitVec 2) : Reg :=
  if b = 0#2 then .v0 else if b = 1#2 then .v1 else if b = 2#2 then .v2 else .v3

/-! ## The fields of a command word (R70) -/

/-- OPC, bits 31:24. -/
def fieldOpc (w : CmdWord) : BitVec 8 := w.extractLsb' 24 8
/-- RD, bits 23:22. -/
def fieldRd (w : CmdWord) : BitVec 2 := w.extractLsb' 22 2
/-- RA, bits 21:20. -/
def fieldRa (w : CmdWord) : BitVec 2 := w.extractLsb' 20 2
/-- RB, bits 19:18. -/
def fieldRb (w : CmdWord) : BitVec 2 := w.extractLsb' 18 2
/-- RSV, bits 17:16, reserved. -/
def fieldRsv (w : CmdWord) : BitVec 2 := w.extractLsb' 16 2
/-- IDX, bits 15:0. -/
def fieldIdx (w : CmdWord) : BitVec 16 := w.extractLsb' 0 16

/-! ## Decoding, in the check order of R79 -/

/-- Checks (1) and (2) of R79: the opcode map of R75, then the fields the row does not use and RSV, which must
be 0 (R73). `none` is ILLEGAL by R77(a) or R77(b). -/
def decodeRow (w : CmdWord) : Option Instr :=
  if fieldOpc w = 0x01#8 then
    if fieldRa w = 0 ∧ fieldRb w = 0 ∧ fieldRsv w = 0 ∧ fieldIdx w = 0 then
      some (.zero (Reg.ofBits (fieldRd w)))
    else none
  else if fieldOpc w = 0x02#8 then
    if fieldRa w = 0 ∧ fieldRb w = 0 ∧ fieldRsv w = 0 ∧ fieldIdx w = 0 then
      some (.parse (Reg.ofBits (fieldRd w)))
    else none
  else if fieldOpc w = 0x03#8 then
    if fieldRd w = 0 ∧ fieldRb w = 0 ∧ fieldRsv w = 0 ∧ fieldIdx w = 0 then
      some (.render (Reg.ofBits (fieldRa w)))
    else none
  else if fieldOpc w = 0x04#8 then
    if fieldRsv w = 0 ∧ fieldIdx w = 0 then
      some (.add (Reg.ofBits (fieldRd w)) (Reg.ofBits (fieldRa w)) (Reg.ofBits (fieldRb w)))
    else none
  else if fieldOpc w = 0x05#8 then
    if fieldRsv w = 0 ∧ fieldIdx w = 0 then
      some (.sub (Reg.ofBits (fieldRd w)) (Reg.ofBits (fieldRa w)) (Reg.ofBits (fieldRb w)))
    else none
  else if fieldOpc w = 0x06#8 then
    if fieldRd w = 0 ∧ fieldRb w = 0 ∧ fieldRsv w = 0 then
      some (.rdw (Reg.ofBits (fieldRa w)) (fieldIdx w))
    else none
  else if fieldOpc w = 0x07#8 then
    if fieldRa w = 0 ∧ fieldRb w = 0 ∧ fieldRsv w = 0 then
      some (.wrw (Reg.ofBits (fieldRd w)) (fieldIdx w))
    else none
  else none

/-- Check (3) of R79 after the other two: idx < N for RDW and WRW. Total on all 2^32 words (R78); `none` is
ILLEGAL (R77). -/
def decode (n : Nat) (w : CmdWord) : Option Instr :=
  match decodeRow w with
  | some i => if i.wellFormed n then some i else none
  | none => none

/-! ## Encoding -/

/-- The one command format (R70): OPC, RD, RA, RB, RSV = 0, IDX, from bit 31 down. -/
def packFields (opc : BitVec 8) (rd ra rb : BitVec 2) (idx : BitVec 16) : CmdWord :=
  opc ++ rd ++ ra ++ rb ++ 0#2 ++ idx

/-- The word of a command, from the opcode map of R75. Fields the row does not use are 0 (R73). -/
def encode : Instr → CmdWord
  | .zero rd => packFields 0x01#8 rd.bits 0 0 0
  | .parse rd => packFields 0x02#8 rd.bits 0 0 0
  | .render ra => packFields 0x03#8 0 ra.bits 0 0
  | .add rd ra rb => packFields 0x04#8 rd.bits ra.bits rb.bits 0
  | .sub rd ra rb => packFields 0x05#8 rd.bits ra.bits rb.bits 0
  | .rdw ra idx => packFields 0x06#8 0 ra.bits 0 idx
  | .wrw rd idx => packFields 0x07#8 rd.bits 0 0 idx

/-! ## The opcode table (R75) -/

/-- The column "match" of R75. -/
def rowMatch : Instr → CmdWord
  | .zero _ => 0x01000000#32
  | .parse _ => 0x02000000#32
  | .render _ => 0x03000000#32
  | .add _ _ _ => 0x04000000#32
  | .sub _ _ _ => 0x05000000#32
  | .rdw _ _ => 0x06000000#32
  | .wrw _ _ => 0x07000000#32

/-- The column "mask" of R75. -/
def rowMask : Instr → CmdWord
  | .zero _ => 0xFF3FFFFF#32
  | .parse _ => 0xFF3FFFFF#32
  | .render _ => 0xFFCFFFFF#32
  | .add _ _ _ => 0xFF03FFFF#32
  | .sub _ _ _ => 0xFF03FFFF#32
  | .rdw _ _ => 0xFFCF0000#32
  | .wrw _ _ => 0xFF3F0000#32

/-- A word selects a command's row when (w & mask) == match (R75). -/
abbrev selectsRow (w : CmdWord) (i : Instr) : Prop := w &&& rowMask i = rowMatch i

/-- The column "also requires" of R75 on the word itself: idx < N for the rows RDW and WRW. -/
abbrev rowRequires (n : Nat) (w : CmdWord) : Instr → Prop
  | .rdw _ _ => (fieldIdx w).toNat < n
  | .wrw _ _ => (fieldIdx w).toNat < n
  | .zero _ | .parse _ | .render _ | .add _ _ _ | .sub _ _ _ => True

/-- Whether the row of an opcode uses RD (R75). -/
def usesRd (opc : BitVec 8) : Bool := opc = 1 || opc = 2 || opc = 4 || opc = 5 || opc = 7
/-- Whether the row of an opcode uses RA (R75). -/
def usesRa (opc : BitVec 8) : Bool := opc = 3 || opc = 4 || opc = 5 || opc = 6
/-- Whether the row of an opcode uses RB (R75). -/
def usesRb (opc : BitVec 8) : Bool := opc = 4 || opc = 5
/-- Whether the row of an opcode uses IDX (R75). -/
def usesIdx (opc : BitVec 8) : Bool := opc = 6 || opc = 7

/-- The three grounds of R77 for which a command word is ILLEGAL. `decode` is written without it. -/
def illegalWord (n : Nat) (w : CmdWord) : Prop :=
  -- (a) OPC is not one of 0x01 to 0x07
  ¬ (1 ≤ (fieldOpc w).toNat ∧ (fieldOpc w).toNat ≤ 7)
  -- (b) a field the row does not use, or RSV, is nonzero
  ∨ fieldRsv w ≠ 0
  ∨ (usesRd (fieldOpc w) = false ∧ fieldRd w ≠ 0)
  ∨ (usesRa (fieldOpc w) = false ∧ fieldRa w ≠ 0)
  ∨ (usesRb (fieldOpc w) = false ∧ fieldRb w ≠ 0)
  ∨ (usesIdx (fieldOpc w) = false ∧ fieldIdx w ≠ 0)
  -- (c) RDW or WRW with idx >= N
  ∨ (((fieldOpc w).toNat = 6 ∨ (fieldOpc w).toNat = 7) ∧ n ≤ (fieldIdx w).toNat)

/-! ## The host's view of the decoder -/

/-- What the decoder reads from a table row's word, on the instantiation of `State.reset` (log entry 23). A
command is one 32-bit beat (R74), so the bits above `nbits` are 0 and the rest is the word itself. -/
def decodeTableWord (nbits w : Nat) : Option Instr :=
  decode Config.default.n (BitVec.ofNat 32 (w % 2 ^ nbits))

/-! ## Assembler text (R80) -/

/-- The operand `v0` to `v3`. -/
def Reg.asm : Reg → String
  | .v0 => "v0"
  | .v1 => "v1"
  | .v2 => "v2"
  | .v3 => "v3"

/-- The text of a command: mnemonic, destination first, then sources in order; the word index in decimal. -/
def Instr.asm : Instr → String
  | .zero rd => "zero " ++ rd.asm
  | .parse rd => "parse " ++ rd.asm
  | .render ra => "render " ++ ra.asm
  | .add rd ra rb => "add " ++ rd.asm ++ ", " ++ ra.asm ++ ", " ++ rb.asm
  | .sub rd ra rb => "sub " ++ rd.asm ++ ", " ++ ra.asm ++ ", " ++ rb.asm
  | .rdw ra idx => "rdw " ++ ra.asm ++ ", " ++ toString idx.toNat
  | .wrw rd idx => "wrw " ++ rd.asm ++ ", " ++ toString idx.toNat

/-- One digit of a word index in the given base (10 or 16). -/
def asmDigit (base : Nat) (c : Char) : Option Nat :=
  let d :=
    if '0'.toNat ≤ c.toNat ∧ c.toNat ≤ '9'.toNat then some (c.toNat - '0'.toNat)
    else if 'a'.toNat ≤ c.toNat ∧ c.toNat ≤ 'f'.toNat then some (c.toNat - 'a'.toNat + 10)
    else if 'A'.toNat ≤ c.toNat ∧ c.toNat ≤ 'F'.toNat then some (c.toNat - 'A'.toNat + 10)
    else none
  d.filter (· < base)

/-- A sequence of digits, most significant first, after the value read so far. -/
def asmDigits (base : Nat) : Nat → List Char → Option Nat
  | acc, [] => some acc
  | acc, c :: cs =>
    match asmDigit base c with
    | some d => asmDigits base (acc * base + d) cs
    | none => none

/-- A word index: a decimal or `0x` hexadecimal integer (R80) that fits the 16-bit IDX field (R72). -/
def asmIdx (cs : List Char) : Option (BitVec 16) :=
  let v :=
    match cs with
    | [] => none
    | '0' :: 'x' :: [] => none
    | '0' :: 'x' :: ds => asmDigits 16 0 ds
    | ds => asmDigits 10 0 ds
  match v with
  | some x => if x < 65536 then some (BitVec.ofNat 16 x) else none
  | none => none

/-- A register operand at the front of the text, and the text after it. -/
def asmReg : List Char → Option (Reg × List Char)
  | 'v' :: '0' :: cs => some (.v0, cs)
  | 'v' :: '1' :: cs => some (.v1, cs)
  | 'v' :: '2' :: cs => some (.v2, cs)
  | 'v' :: '3' :: cs => some (.v3, cs)
  | _ => none

/-- One register operand and nothing after it. -/
def asmR (cs : List Char) : Option Reg :=
  match asmReg cs with
  | some (r, []) => some r
  | _ => none

/-- Three register operands. -/
def asmRRR (cs : List Char) : Option (Reg × Reg × Reg) :=
  match asmReg cs with
  | some (d, ',' :: ' ' :: cs1) =>
    match asmReg cs1 with
    | some (a, ',' :: ' ' :: cs2) => (asmR cs2).map fun b => (d, a, b)
    | _ => none
  | _ => none

/-- A register operand and a word index. -/
def asmRI (cs : List Char) : Option (Reg × BitVec 16) :=
  match asmReg cs with
  | some (r, ',' :: ' ' :: cs1) => (asmIdx cs1).map fun i => (r, i)
  | _ => none

/-- The command an assembler line names: lower-case mnemonic, one space, operands separated by a comma and one
space (R80; the exact spacing is log entry 22). Comments are not part of the text read here. -/
def assemble (s : String) : Option Instr :=
  match s.toList with
  | 'z' :: 'e' :: 'r' :: 'o' :: ' ' :: cs => (asmR cs).map .zero
  | 'p' :: 'a' :: 'r' :: 's' :: 'e' :: ' ' :: cs => (asmR cs).map .parse
  | 'r' :: 'e' :: 'n' :: 'd' :: 'e' :: 'r' :: ' ' :: cs => (asmR cs).map .render
  | 'a' :: 'd' :: 'd' :: ' ' :: cs => (asmRRR cs).map fun (d, a, b) => .add d a b
  | 's' :: 'u' :: 'b' :: ' ' :: cs => (asmRRR cs).map fun (d, a, b) => .sub d a b
  | 'r' :: 'd' :: 'w' :: ' ' :: cs => (asmRI cs).map fun (r, i) => .rdw r i
  | 'w' :: 'r' :: 'w' :: ' ' :: cs => (asmRI cs).map fun (r, i) => .wrw r i
  | _ => none

end Sys2Proof
end

