-- ==== Sys2Proof/Machine/Flags.lean ====
section
/-! DEFINITION. The block has no flags (10_state.md R39). The two bits an arithmetic command passes from word to
word, the carry (R37, 43_arithmetic.md R121) and the borrow (R38, R131), are computed here. -/

namespace Sys2Proof.Machine

/-- A carry or borrow bit as a number. -/
def bitVal (c : Bool) : Nat := if c then 1 else 0

/-- The integer sum of one word step of ADD, 0 to 2^65 - 1 (R121). -/
def addSum (x y : Word) (c : Bool) : Nat := x.toNat + y.toNat + bitVal c

/-- The result word of a step of ADD: the sum modulo 2^64 (R121). -/
def addWord (x y : Word) (c : Bool) : Word := BitVec.ofNat 64 (addSum x y c)

/-- The outgoing carry of a step with integer sum `t` and result word `s`, by CARRY_RULE (R121). -/
def carryOut (r : CarryRule) (t : Nat) (s : Word) : Bool :=
  match r with
  | .sumEqMax => decide (s = max64)
  | .exactCarry => decide (2 ^ 64 ≤ t)

/-- The integer difference of one word step of SUB, -2^64 to 2^64 - 1 (R131). -/
def subDiff (x y : Word) (bo : Bool) : Int := (x.toNat : Int) - (y.toNat : Int) - (bitVal bo : Int)

/-- The result word of a step of SUB: the difference modulo 2^64 (R131). -/
def subWord (x y : Word) (bo : Bool) : Word := BitVec.ofInt 64 (subDiff x y bo)

/-- The outgoing borrow of a step with integer difference `t` and result word `d`, by BORROW_RULE (R131). -/
def borrowOut (r : BorrowRule) (t : Int) (d : Word) : Bool :=
  match r with
  | .topBit => d.msb
  | .exactBorrow => decide (t < 0)

end Sys2Proof.Machine
end

