-- ==== Sys2Proof/Machine/State.lean ====
section
/-! DEFINITION. The state of the block and of the host it talks to (10_state.md), and the state after reset (R46). -/

namespace Sys2Proof.Machine

/-! ## Channel beats -/

/-- The status of a response (60_exceptions.md R140). -/
inductive Status
  /-- 0: the command completed. -/
  | ok
  /-- 1: a non-hex character in the parse input (R141). -/
  | decode
  /-- 2: the parse input needs more than N words (R142). -/
  | overflow
  /-- 3: the command word is not a legal encoding (R143). -/
  | illegal
  deriving DecidableEq, Repr

/-- A `rsp` beat: `rsp_status` and `rsp_data` (30_encoding.md R86). -/
structure RspBeat where
  status : Status
  data   : Word
  deriving DecidableEq, Repr

/-- A beat of `hin` or `hout` (30_encoding.md R84, R85): lane k of `data` is bits 8k+7 to 8k, `count` lanes hold
a character, `last` marks the final beat of a packet. That it fits the wires of R41 is `HexBeat.fits`. -/
structure HexBeat where
  data  : LaneBus
  count : Nat
  last  : Bool
  deriving DecidableEq, Repr

/-- What the host's record of `hout` holds (log entries 6, 28). -/
inductive HoutEntry
  /-- A beat the host has taken. -/
  | beat (b : HexBeat)
  /-- The packet whose beats come just before was abandoned by a reset: it has no last beat
  (70_reset_and_hazards.md R162). -/
  | abandoned
  deriving DecidableEq, Repr

/-! ## Control state -/

/-- What a command in EXEC has gathered or done before it had to wait for the host (10_state.md R44,
00_scope.md R16). The loop-local temporaries of a command (carry, borrow, result array) do not outlive a step. -/
inductive Temps
  /-- The command has just been taken. -/
  | none
  /-- PARSE: the characters `RecvHex` has taken so far, of a packet whose last beat has not come. -/
  | text (s : Str)
  /-- RENDER: the whole packet has been produced, and the host has still to take it. -/
  | packetSent
  deriving DecidableEq, Repr

/-- The phase of the block (10_state.md R43). -/
inductive Phase
  /-- No command is held. -/
  | idle
  /-- A command has been taken and is executing. -/
  | exec (i : Instr) (t : Temps)
  /-- The command has finished; its response is offered until the host takes it. -/
  | resp (status : Status) (data : Word)
  deriving DecidableEq, Repr

/-- Where the block stands with respect to reset (log entries 8, 9). -/
inductive Boot
  /-- No reset edge has happened yet: the contents of the registers and the phase are unspecified (R35). -/
  | unreset
  /-- Reset has happened, and no rising edge with rst = 0 since. -/
  | fresh
  /-- rst has been 0 for at least one rising edge since reset (70_reset_and_hazards.md R165). -/
  | ready
  deriving DecidableEq, Repr

/-! ## Moves -/

/-- The channels the host sends on (10_state.md R41). -/
inductive InChannel
  | cmd | din | hin
  deriving DecidableEq, Repr

/-- One move of the host (00_scope.md R19, 70_reset_and_hazards.md R161, R166, R167). -/
inductive HostMove
  /-- Offer a command word on `cmd`. -/
  | offerCmd (w : CmdWord)
  /-- Offer a data word on `din`. -/
  | offerDin (x : Word)
  /-- Offer a beat on `hin`. -/
  | offerHin (b : HexBeat)
  /-- Be ready on `rsp`: a response beat transfers if one is offered. -/
  | takeRsp
  /-- Be ready on `hout`: a hex-out beat transfers if one is offered. -/
  | takeHout
  /-- Drive the reset input. -/
  | setRst (level : Bool)
  /-- Drop `valid` on a channel (a protocol violation while a beat waits there, R82, U3). -/
  | dropValid (ch : InChannel)
  /-- Change a channel's payload (a protocol violation while a beat waits there, R82, U3). -/
  | changePayload (ch : InChannel)
  /-- Offer a beat left over from before a reset (a protocol violation, R163, U3). -/
  | offerStale (ch : InChannel)
  deriving DecidableEq, Repr

/-- Who moves next (log entry 4). -/
inductive Turn
  /-- A rising edge of `clk` on which the block makes its next move if it has one. -/
  | block
  /-- A rising edge on which the block, in IDLE, only takes its command word and enters EXEC (move (1) of R160 alone);
  the command's own work comes with a later `block` (LATENCY, 93_implementation_defined.md U4). -/
  | accept
  /-- A time in which the block makes no move although it may have one (93_implementation_defined.md U5). DESIGN CHOICE
  (log entry 30): it is no rising edge of `clk`, so with rst = 1 it does not reset (R161) and with rst = 0 it is not the
  edge that R165 waits for. A cycle with an edge on which only these happen is a `block` or `accept` turn. -/
  | idle
  | host (m : HostMove)
  deriving DecidableEq, Repr

/-! ## How a step can stop -/

/-- The faults of a run. -/
inductive Fault
  /-- Raised by a host offering a command, and by the block meeting one, before the first reset
  (93_implementation_defined.md U1). Safe: the model stops where the spec leaves the contents open. -/
  | beforeFirstReset
  deriving DecidableEq, Repr

/-- The runs the model refuses. -/
inductive Refusal
  /-- Raised by `exec` for an instruction with no meaning yet. Safe. No arm raises it: all seven are modelled. -/
  | notModelled (mnemonic : String)
  /-- Raised by a host move that drops valid while a beat waits on the channel (U3). Safe. -/
  | droppedValid (ch : InChannel)
  /-- Raised by a host move that changes the payload of a waiting beat (U3). Safe. -/
  | changedPayload (ch : InChannel)
  /-- Raised by a host move that offers a beat left over from before a reset (U3). Safe. -/
  | staleBeat (ch : InChannel)
  /-- Raised by a host move that offers a `hin` beat with hin_count > LANES (U3). Safe. -/
  | hinCountTooLarge
  /-- Raised by a host move that offers a command before rst has been 0 for a rising edge after reset
  (70_reset_and_hazards.md R165, log entry 9). Safe. -/
  | commandBeforeRelease
  deriving DecidableEq, Repr

/-! ## The state -/

/-- The block, its channels and its host. -/
structure State where
  /-- The instantiation constants (00_scope.md R9 to R12). No step changes them (log entry 2). -/
  cfg     : Config
  /-- Value register V0 (10_state.md R30). -/
  v0      : Value
  /-- Value register V1. -/
  v1      : Value
  /-- Value register V2. -/
  v2      : Value
  /-- Value register V3. -/
  v3      : Value
  /-- The phase (10_state.md R43). -/
  phase   : Phase
  /-- Command words offered and not yet taken, oldest first (10_state.md R42). -/
  cmdQ    : List CmdWord
  /-- Data words offered and not yet taken. -/
  dinQ    : List Word
  /-- Hex-in beats offered and not yet taken. -/
  hinQ    : List HexBeat
  /-- Response beats produced and not yet taken. -/
  rspQ    : List RspBeat
  /-- Hex-out beats produced and not yet taken. -/
  houtQ   : List HexBeat
  /-- The level of the reset input (70_reset_and_hazards.md R161). -/
  rst     : Bool
  /-- Where the block stands with respect to reset (the model's own field, log entries 8, 9). -/
  boot    : Boot
  /-- The moves still to come, oldest first (the model's own field, log entry 4). -/
  turns   : List Turn
  /-- The response beats the host has taken, oldest first (R172; the model's own field, log entry 6). -/
  rspLog  : List RspBeat
  /-- The hex-out beats the host has taken, oldest first, and where a reset cut a packet off (R162, R172; the model's
  own field, log entries 6, 28). -/
  houtLog : List HoutEntry
  deriving DecidableEq, Repr

/-- The state right after reset of the instantiation `c` (10_state.md R46): every register zero, IDLE, every
queue empty. The reset input is released again and no edge has passed since (log entry 20). -/
def State.resetWith (c : Config) : State :=
  { cfg := c
    v0 := zeroV c.n
    v1 := zeroV c.n
    v2 := zeroV c.n
    v3 := zeroV c.n
    phase := .idle
    cmdQ := []
    dinQ := []
    hinQ := []
    rspQ := []
    houtQ := []
    rst := false
    boot := .fresh
    turns := []
    rspLog := []
    houtLog := [] }

/-- The machine right after reset, on the instantiation of log entry 1. -/
def State.reset : State := State.resetWith Config.default

/-- The machine before its first reset (10_state.md R35). The register contents and the phase written here are
no values of the block's: no command runs from this state, the first one faults (U1, log entry 8). -/
def State.powerOn (c : Config) : State := { State.resetWith c with boot := .unreset }

end Sys2Proof.Machine
end

