-- ==== Sys2Proof/Machine/Ops.lean ====
section
/-! DEFINITION. The named operations of the block: registers (10_state.md R30 to R33), the pseudocode primitives
(00_scope.md R16), and the one way a command ends in an error. -/

namespace Sys2Proof.Machine

/-! ## Value registers -/

/-- `V[r]`. -/
def State.reg (s : State) : Reg → Value
  | .v0 => s.v0
  | .v1 => s.v1
  | .v2 => s.v2
  | .v3 => s.v3

/-- `V[r] <- v`: all words at once (R14, R59). No other register changes (R33, R58). -/
def State.setReg (s : State) (r : Reg) (v : Value) : State :=
  match r with
  | .v0 => { s with v0 := v }
  | .v1 => { s with v1 := v }
  | .v2 => { s with v2 := v }
  | .v3 => { s with v3 := v }

/-- `V[r].w[j]`. A register has N words (R30), so for j < N the word is there (log entry 16). -/
def State.word (s : State) (r : Reg) (j : Nat) : Word := (s.reg r).getD j 0#64

/-- `V[r].w[j] <- x`: only this word changes (R14, 40_construction.md R93). -/
def State.setWord (s : State) (r : Reg) (j : Nat) (x : Word) : State := s.setReg r ((s.reg r).set j x)

/-! ## Responses and errors -/

/-- The code of a status on `rsp_status` (60_exceptions.md R140). -/
def Status.code : Status → BitVec 2
  | .ok => 0#2
  | .decode => 1#2
  | .overflow => 2#2
  | .illegal => 3#2

/-- `SendRsp(status, data)`: the command has ended, its one response beat is offered (R16, R86, 10_state.md R43;
move (3) of 70_reset_and_hazards.md R160). The temporaries of the command die here. -/
def State.sendRsp (s : State) (st : Status) (d : Word) : State :=
  { s with phase := .resp st d, rspQ := s.rspQ ++ [⟨st, d⟩] }

/-- `raise E`: the command ends at once with response (E, 0), and what it has not committed is discarded (R16).
This is the block's only form of an exception: nothing is saved, no mode changes, control goes nowhere
(60_exceptions.md R147), and there is no return but RESP to IDLE when the host takes the response (R148,
`State.takeRsp`). A meaning calls it on a state in which it has written no register. -/
def State.raise (s : State) (e : Status) : State := s.sendRsp e 0#64

/-! ## Taking beats -/

/-- The words offered on `din` that have not been taken are `q`; nothing else changes. -/
def State.setDinQ (s : State) (q : List Word) : State := { s with dinQ := q }

/-- The beats offered on `hin` that have not been taken are `q`; nothing else changes. -/
def State.setHinQ (s : State) (q : List HexBeat) : State := { s with hinQ := q }

/-! ## The phase -/

/-- The temporaries of the command in EXEC; none in another phase. -/
def State.temps (s : State) : Temps :=
  match s.phase with
  | .exec _ t => t
  | .idle => .none
  | .resp _ _ => .none

/-- A rising edge with rst = 0: from here on rst has been 0 for at least one edge (R165). -/
def State.tick (s : State) : State := { s with boot := .ready }

/-- The block takes its command word and enters EXEC (move (1) of R160, `RecvCmd` of R16). `rest` is what remains
offered on `cmd`. -/
def State.beginCommand (s : State) (i : Instr) (rest : List CmdWord) : State :=
  { s with cmdQ := rest, phase := .exec i .none, boot := .ready }

/-! ## Hex beats -/

/-- The character in lane k: bits 8k+7 to 8k (20_memory.md R54, 30_encoding.md R84). -/
def laneOf (data : LaneBus) (k : Nat) : Code := data.extractLsb' (8 * k) 8

/-- A payload with the given characters in lanes 0, 1, … and 0 in every lane above (R85). -/
def packLanes : Str → LaneBus
  | [] => 0
  | c :: cs => (packLanes cs <<< 8) ||| c.setWidth 128

/-- The characters a beat carries: lanes 0 to count-1, lane 0 first; the lanes above are ignored (R84). -/
def HexBeat.chars (b : HexBeat) : Str := (List.range b.count).map (laneOf b.data)

/-- The payload of a beat on the wires of an instantiation: 8 * LANES bits (10_state.md R41). -/
def HexBeat.dataBus (l : Lanes) (b : HexBeat) : BitVec l.dataWidth := b.data.setWidth l.dataWidth

/-- The count of a beat on the wires: c bits (10_state.md R41). -/
def HexBeat.countBus (l : Lanes) (b : HexBeat) : BitVec l.countWidth := BitVec.ofNat l.countWidth b.count

/-- The beat with the payload its wires carry, and nothing above them (log entry 11). -/
def HexBeat.onBus (l : Lanes) (b : HexBeat) : HexBeat := { b with data := (b.dataBus l).setWidth 128 }

/-- The beat is one that the wires of an instantiation can carry (10_state.md R41): its payload has 8 * LANES bits and
its count is at most LANES (30_encoding.md R84), so it has c bits. Every beat in `hinQ` and `houtQ` fits. -/
abbrev HexBeat.fits (l : Lanes) (b : HexBeat) : Prop := b.data.toNat < 2 ^ l.dataWidth ∧ b.count ≤ l.count

/-- What `RecvHex` has after it has taken the beats offered so far. -/
structure Received where
  /-- The characters taken, in beat order. -/
  text     : Str
  /-- Whether the beat with hin_last = 1 has been taken. -/
  complete : Bool
  /-- The beats not taken. -/
  rest     : List HexBeat
  deriving DecidableEq, Repr

/-- `RecvHex()`: takes beats until and including the first with hin_last = 1, whatever their content, and
concatenates their valid lanes (R16, R84). `got` is what the command took earlier. -/
def recvHex (got : Str) : List HexBeat → Received
  | [] => ⟨got, false, []⟩
  | b :: q => if b.last then ⟨got ++ b.chars, true, q⟩ else recvHex (got ++ b.chars) q

/-- The number of beats of a packet: max(1, ceil(len / LANES)) (R85). -/
def beatCount (lanes : Lanes) (len : Nat) : Nat := max 1 ((len + lanes.count - 1) / lanes.count)

/-- Beat k of the packet of `s`: its piece of the string, and last on the final beat (R85). -/
def hexBeat (lanes : Lanes) (s : Str) (k : Nat) : HexBeat :=
  let piece := (s.drop (lanes.count * k)).take lanes.count
  { data := packLanes piece
    count := piece.length
    last := decide (k + 1 = beatCount lanes s.length) }

/-- `SendHex(s)`: the packet of a string (R85, R16). -/
def sendHex (lanes : Lanes) (s : Str) : List HexBeat :=
  (List.range (beatCount lanes s.length)).map (hexBeat lanes s)

/-! ## The schedule -/

/-- The moves still to come are `ts`; nothing else changes. -/
def State.withTurns (s : State) (ts : List Turn) : State := { s with turns := ts }

/-! ## Reset -/

/-- The host has taken beats of a packet and not its last beat. -/
def packetOpen (log : List HoutEntry) : Bool :=
  match log.getLast? with
  | some (.beat b) => !b.last
  | some .abandoned => false
  | none => false

/-- The host's record when the block is reset: the beats stay, and a packet that had begun is cut off without a last
beat (70_reset_and_hazards.md R162; the host drops the partial packet, R163; log entry 28). -/
def cutRecord (log : List HoutEntry) : List HoutEntry :=
  if packetOpen log then log ++ [.abandoned] else log

/-- A rising edge with rst = 1 (70_reset_and_hazards.md R161 to R164): the reset state, with every queue emptied,
host side included (R163). The input, the moves to come and what the host already took are not the block's. -/
def State.resetEdge (s : State) : State :=
  { State.resetWith s.cfg with
    rst := s.rst
    turns := s.turns
    rspLog := s.rspLog
    houtLog := cutRecord s.houtLog }

end Sys2Proof.Machine
end

