-- ==== Sys2Proof/Machine/Operands.lean ====
section
/-! DEFINITION. The operand forms (30_encoding.md R71, R72, R76): whole source registers, a word index, and the
data word of `din`. -/

namespace Sys2Proof.Machine

/-- The word index of RDW and WRW: IDX zero-extended, used as it is (R72). -/
def wordIndex (idx : BitVec 16) : Nat := idx.toNat

/-- The check "idx < N" of RDW and WRW (R75, R77(c)). -/
def indexLegal (s : State) (idx : BitVec 16) : Bool := decide (wordIndex idx < s.cfg.n)

/-- Both sources of ADD and SUB, read whole before any write (43_arithmetic.md R125): V[ra] is the document's
`self`, V[rb] its `other` (R76). -/
def sourcePair (s : State) (ra rb : Reg) : Value × Value := (s.reg ra, s.reg rb)

/-- What `RecvHex` has when PARSE goes on: the characters gathered before, and none for a command just taken. -/
def Temps.received : Temps → Str
  | .none => []
  | .text t => t
  | .packetSent => []

end Sys2Proof.Machine
end

