-- ==== Sys2Proof/Machine/Arithmetic.lean ====
section
/-! DEFINITION. ADD and SUB (43_arithmetic.md). -/

namespace Sys2Proof.Machine

/-- The result array of a word loop and the bit that left its most significant word. -/
structure LoopResult where
  value : Value
  out   : Bool
  deriving DecidableEq, Repr

/-- The word loop of ADD (R122): from the least significant word, the last of the list, to the most significant,
the first, with a carry that is 0 at the start. -/
def addLoop (r : CarryRule) : Value → Value → LoopResult
  | x :: xs, y :: ys =>
    let low := addLoop r xs ys
    let s := addWord x y low.out
    ⟨s :: low.value, carryOut r (addSum x y low.out) s⟩
  | [], _ => ⟨[], false⟩
  | _ :: _, [] => ⟨[], false⟩

/-- The word loop of SUB (R132), with a borrow that is 0 at the start. -/
def subLoop (r : BorrowRule) : Value → Value → LoopResult
  | x :: xs, y :: ys =>
    let low := subLoop r xs ys
    let d := subWord x y low.out
    ⟨d :: low.value, borrowOut r (subDiff x y low.out) d⟩
  | [], _ => ⟨[], false⟩
  | _ :: _, [] => ⟨[], false⟩

/-- `add(a, b)`: the final carry is discarded (R122, R123). -/
def addValue (r : CarryRule) (a b : Value) : Value := (addLoop r a b).value

/-- `sub(a, b)`: the final borrow is discarded (R132). -/
def subValue (r : BorrowRule) (a b : Value) : Value := (subLoop r a b).value

/-- ADD (R122): both sources are read whole, the destination is written whole at the end (R125). Always OK. -/
def execAdd (rd ra rb : Reg) (s : State) : Host.Outcome State Fault Refusal :=
  let (a, b) := sourcePair s ra rb
  .next ((s.setReg rd (addValue s.cfg.carryRule a b)).sendRsp .ok 0#64)

/-- SUB (R132): V[ra] minus V[rb]. Always OK. -/
def execSub (rd ra rb : Reg) (s : State) : Host.Outcome State Fault Refusal :=
  let (a, b) := sourcePair s ra rb
  .next ((s.setReg rd (subValue s.cfg.borrowRule a b)).sendRsp .ok 0#64)

end Sys2Proof.Machine
end

