-- ==== Sys2Proof/Machine/Construction.lean ====
section
/-! DEFINITION. ZERO, RDW and WRW (40_construction.md). -/

namespace Sys2Proof.Machine

/-- ZERO (R91): every word of V[rd] becomes 0. Always OK. -/
def execZero (rd : Reg) (s : State) : Host.Outcome State Fault Refusal :=
  .next ((s.setReg rd (zeroV s.cfg.n)).sendRsp .ok 0#64)

/-- RDW (R92): the response carries V[ra].w[idx]. With idx >= N, which decoding already refuses, the response is
(ILLEGAL, 0) and nothing is read (R92, log entry 15). -/
def execRdw (ra : Reg) (idx : BitVec 16) (s : State) : Host.Outcome State Fault Refusal :=
  if indexLegal s idx then .next (s.sendRsp .ok (s.word ra (wordIndex idx)))
  else .next (s.raise .illegal)

/-- WRW (R93): takes one `din` beat (`RecvDin`, R16) into V[rd].w[idx]; with none offered it waits, and waiting is no move
(70_reset_and_hazards.md R160(2), R166). With idx >= N the response is (ILLEGAL, 0) and no beat is taken. -/
def execWrw (rd : Reg) (idx : BitVec 16) (s : State) : Host.Outcome State Fault Refusal :=
  if indexLegal s idx then
    match s.dinQ with
    | [] => .next s
    | x :: q => .next (((s.setDinQ q).setWord rd (wordIndex idx) x).sendRsp .ok 0#64)
  else .next (s.raise .illegal)

end Sys2Proof.Machine
end

