-- ==== Sys2Proof/Machine/Text.lean ====
section
/-! DEFINITION. Characters and strings (00_scope.md R15), values and their word arrays (R14). -/

namespace Sys2Proof.Machine

/-! ## Characters (R15; ASCII codes and digit values are the spec's G2 and G3) -/

/-- `is_hex(c)`: one of the 22 codes of `[0-9a-fA-F]`. -/
def isHex (c : Code) : Bool :=
  (0x30 ≤ c.toNat && c.toNat ≤ 0x39) || (0x41 ≤ c.toNat && c.toNat ≤ 0x46)
    || (0x61 ≤ c.toNat && c.toNat ≤ 0x66)

/-- `hexval(c)`: the digit's value, for a hex character. -/
def hexval (c : Code) : Nat :=
  if c.toNat ≤ 0x39 then c.toNat - 0x30
  else if c.toNat ≤ 0x46 then c.toNat - 0x41 + 10
  else c.toNat - 0x61 + 10

/-- `hexchar(n)`: the lowercase digit of 0 to 15. -/
def hexchar (d : BitVec 4) : Code :=
  if d.toNat < 10 then BitVec.ofNat 8 (0x30 + d.toNat) else BitVec.ofNat 8 (0x61 + (d.toNat - 10))

/-- `hex16(x)`: the 16 lowercase digits of a word, most significant first. -/
def hex16 (x : Word) : Str :=
  (List.range 16).map fun k => hexchar (x.extractLsb' (60 - 4 * k) 4)

/-- `strip0(s)`: s without its leading '0' characters. -/
def strip0 : Str → Str
  | [] => []
  | c :: cs => if c = 0x30#8 then strip0 cs else c :: cs

/-- `lower`: 'A' to 'F' onto 'a' to 'f', every other code as it is (42_hex_encode.md R117). -/
def lower (c : Code) : Code :=
  if 0x41 ≤ c.toNat ∧ c.toNat ≤ 0x46 then c + 0x20#8 else c

/-- `D(s)`: the number a string of hex digits denotes (41_hex_decode.md R106). -/
def digitsVal : Str → Nat
  | [] => 0
  | c :: cs => hexval c * 16 ^ cs.length + digitsVal cs

/-! ## Values (R14) -/

/-- `val(v)`: the number a word array represents, word 0 most significant. -/
def val : Value → Nat
  | [] => 0
  | w :: ws => w.toNat * 2 ^ (64 * ws.length) + val ws

/-- `words(x)`: the array of `n` words that represents `x` modulo 2^(64n). -/
def words (n x : Nat) : Value :=
  (List.range n).map fun j => BitVec.ofNat 64 (x / 2 ^ (64 * (n - 1 - j)))

end Sys2Proof.Machine
end

