-- ==== Sys2Proof/Machine/HexDecode.lean ====
section
/-! DEFINITION. The hex-to-binary decoder and PARSE (41_hex_decode.md). -/

namespace Sys2Proof.Machine

/-! ## The parse function, step by step (R95 to R102) -/

/-- What `hexparse_N` returns (R95). -/
inductive ParseResult
  | ok (v : Value)
  | decode
  | overflow
  deriving DecidableEq, Repr

/-- Step 1: a string of odd length gets one '0' on the left (R95). -/
def padOdd (s : Str) : Str := if s.length % 2 = 1 then 0x30#8 :: s else s

/-- Step 2: two digits to a byte, most significant byte first (R96). -/
def toBytes : Str → List Code
  | h :: l :: rest => BitVec.ofNat 8 (hexval h * 16 + hexval l) :: toBytes rest
  | [_] => []
  | [] => []

/-- Step 3: how many zero bytes are put in front (R97). -/
def padCount (len : Nat) : Nat :=
  let p := 8 - len % 8
  if p = 8 then 0 else p

/-- Step 3: the bytes padded to a multiple of 8 (R97). -/
def padBytes (bytes : List Code) : List Code := List.replicate (padCount bytes.length) 0#8 ++ bytes

/-- Step 5: consecutive 8-byte chunks, the most significant first (R99). -/
def chunks : List Code → List (List Code)
  | a :: b :: c :: d :: e :: f :: g :: h :: rest => [a, b, c, d, e, f, g, h] :: chunks rest
  | _ => []

/-- The number a sequence of bytes stands for, most significant byte first (20_memory.md R53, R99). -/
def bytesVal : List Code → Nat
  | [] => 0
  | b :: bs => b.toNat * 2 ^ (8 * bs.length) + bytesVal bs

/-- Step 5: a chunk as a word (R99). -/
def chunkWord (c : List Code) : Word := BitVec.ofNat 64 (bytesVal c)

/-- The word slot of chunk `i` of `k` in an array of `n` words, by CHUNK_RULE (R100). -/
def chunkSlot (r : ChunkRule) (n k i : Nat) : Nat :=
  match r with
  | .fromStart => n - 1 - i
  | .fromEnd => n - k + i

/-- Steps 5 and 6: each chunk into its slot of a zero array; a chunk index i >= N is ignored (R100, R101). -/
def placeChunks (r : ChunkRule) (n : Nat) (cs : List Word) : Value :=
  cs.zipIdx.foldl (fun v ci => if ci.2 < n then v.set (chunkSlot r n cs.length ci.2) ci.1 else v) (zeroV n)

/-- `hexparse_N(s)` (R95 to R102): DECODE before OVERFLOW, and no partial result. -/
def hexparse (n : Nat) (r : ChunkRule) (s : Str) : ParseResult :=
  let s1 := padOdd s
  if s1.all isHex then
    let padded := padBytes (toBytes s1)
    if 8 * n < padded.length then .overflow
    else .ok (placeChunks r n ((chunks padded).map chunkWord))
  else .decode

/-! ## The serial realisation (R104) -/

/-- The three temporaries of R104. -/
structure SerialTemps where
  /-- The 64N-bit accumulator. -/
  acc : Nat
  /-- The character count, saturating at 16N + 1. -/
  cnt : Nat
  /-- Whether a non-hex character has been seen. -/
  bad : Bool
  deriving DecidableEq, Repr

/-- The temporaries when a PARSE starts. -/
def SerialTemps.start : SerialTemps := ⟨0, 0, false⟩

/-- One character (R104). -/
def SerialTemps.feed (n : Nat) (t : SerialTemps) (c : Code) : SerialTemps :=
  { acc := if isHex c then (t.acc * 16 + hexval c) % 2 ^ (64 * n) else t.acc
    cnt := min (t.cnt + 1) (16 * n + 1)
    bad := t.bad || !isHex c }

/-- The array with its low `k` words reversed (R104, R106(b)). -/
def reverseLow (k : Nat) (v : Value) : Value := v.take (v.length - k) ++ (v.drop (v.length - k)).reverse

/-- The result at the end of the packet (R104). -/
def SerialTemps.finish (n : Nat) (r : ChunkRule) (t : SerialTemps) : ParseResult :=
  if t.bad then .decode
  else if 16 * n < t.cnt then .overflow
  else match r with
    | .fromEnd => .ok (words n t.acc)
    | .fromStart => .ok (reverseLow ((t.cnt + 15) / 16) (words n t.acc))

/-- The serial decoder on a whole string. -/
def hexparseSerial (n : Nat) (r : ChunkRule) (s : Str) : ParseResult :=
  (s.foldl (SerialTemps.feed n) SerialTemps.start).finish n r

/-! ## The PARSE command -/

/-- What PARSE does with a whole packet (R103): commit and OK, or raise with V[rd] unchanged. -/
def finishParse (rd : Reg) (text : Str) (s : State) : State :=
  match hexparse s.cfg.n s.cfg.chunkRule text with
  | .ok v => (s.setReg rd v).sendRsp .ok 0#64
  | .decode => s.raise .decode
  | .overflow => s.raise .overflow

/-- PARSE (R103): takes the offered beats of its packet; when the last one has come, the parse function decides.
With no beat offered it waits, and waiting is no move; with an unfinished packet it keeps what it has taken
(70_reset_and_hazards.md R160(2), R166, R169). -/
def execParse (rd : Reg) (s : State) : Host.Outcome State Fault Refusal :=
  match s.hinQ with
  | [] => .next s
  | _ :: _ =>
    let r := recvHex s.temps.received s.hinQ
    if r.complete then .next (finishParse rd r.text (s.setHinQ r.rest))
    else .next { s with hinQ := r.rest, phase := .exec (.parse rd) (.text r.text) }

end Sys2Proof.Machine
end

