-- ==== Sys2Proof/Machine/HexEncode.lean ====
section
/-! DEFINITION. The binary-to-hex encoder and RENDER (42_hex_encode.md). -/

namespace Sys2Proof.Machine

/-! ## The render function (R110 to R112) -/

/-- Whether a word contributes its 16 digits, by RENDER_RULE; `seen` says that an earlier word has (R111). -/
def emitsWord (r : RenderRule) (seen : Bool) (w : Word) : Bool :=
  match r with
  | .skipAllZero => w != 0#64
  | .skipLeadingZero => w != 0#64 || seen

/-- The concatenated digits `t` of R111, before the final strip. -/
def renderLoop (r : RenderRule) : Bool → Value → Str
  | _, [] => []
  | seen, w :: ws =>
    if emitsWord r seen w then hex16 w ++ renderLoop r true ws else renderLoop r seen ws

/-- `hexrender(v)` (R110, R111). -/
def hexrender (r : RenderRule) (v : Value) : Str := strip0 (renderLoop r false v)

/-! ## The serial realisation (R116) -/

/-- The digits of one word, most significant nibble first, with '0' suppressed until a first non-zero digit. -/
def emitDigits : Bool → Str → Str × Bool
  | started, [] => ([], started)
  | started, c :: cs =>
    if started || c != 0x30#8 then
      let (t, e) := emitDigits true cs
      (c :: t, e)
    else emitDigits false cs

/-- The encoder that scans words from index 0 without building `t` (R116): `started` says that a first non-zero
digit has been emitted. -/
def renderSerial (r : RenderRule) : Bool → Value → Str
  | _, [] => []
  | started, w :: ws =>
    let skip := match r with
      | .skipAllZero => w == 0#64
      | .skipLeadingZero => w == 0#64 && !started
    if skip then renderSerial r started ws
    else
      let (t, e) := emitDigits started (hex16 w)
      t ++ renderSerial r e ws

/-! ## The RENDER command -/

/-- RENDER (R113): produces the packet of V[ra]; the response comes only after the host has taken the last beat
(70_reset_and_hazards.md R160(2), R169). While beats wait for the host, RENDER makes no move. -/
def execRender (ra : Reg) (s : State) : Host.Outcome State Fault Refusal :=
  match s.temps with
  | .packetSent =>
    match s.houtQ with
    | [] => .next (s.sendRsp .ok 0#64)
    | _ :: _ => .next s
  | .none | .text _ =>
    .next { s with
      houtQ := s.houtQ ++ sendHex s.cfg.lanes (hexrender s.cfg.renderRule (s.reg ra))
      phase := .exec (.render ra) .packetSent }

end Sys2Proof.Machine
end

