-- ==== Sys2Proof/Machine/Dispatch.lean ====
section
/-! DEFINITION. What a command in EXEC does at its next move: one meaning per row of opcode_table.json. -/

namespace Sys2Proof.Machine

/-- One move of a command that has been taken (70_reset_and_hazards.md R160(2), (3)). -/
def exec (i : Instr) (s : State) : Host.Outcome State Fault Refusal :=
  match i with
  | .zero rd => Sys2Proof.Machine.execZero rd s
  | .parse rd => Sys2Proof.Machine.execParse rd s
  | .render ra => Sys2Proof.Machine.execRender ra s
  | .add rd ra rb => Sys2Proof.Machine.execAdd rd ra rb s
  | .sub rd ra rb => Sys2Proof.Machine.execSub rd ra rb s
  | .rdw ra idx => Sys2Proof.Machine.execRdw ra idx s
  | .wrw rd idx => Sys2Proof.Machine.execWrw rd idx s

end Sys2Proof.Machine
end

