-- ==== Sys2Proof/Machine/Block.lean ====
section
/-! DEFINITION. The moves of the block: reset, taking a command, executing it, waiting (70_reset_and_hazards.md R160,
R161), and where a command word is put for the block to take next. -/

namespace Sys2Proof.Machine

/-- The block in IDLE: it takes the offered word and executes the command; a word that does not decode goes straight
to RESP(ILLEGAL, 0) (R160(1), 30_encoding.md R77). With no word offered it stays in IDLE (60_exceptions.md R157).
Taking a command and its first move of execution are one step (U4, log entry 3). -/
def takeCommand (s : State) : Host.Outcome State Fault Refusal :=
  match s.cmdQ with
  | [] => .next s.tick
  | w :: rest =>
    match decode s.cfg.n w with
    | some i => exec i (s.beginCommand i rest)
    | none => .next (State.raise { s with cmdQ := rest, boot := .ready } .illegal)

/-- A rising edge with rst = 0, after a reset, by phase (10_state.md R43). In RESP the block waits for the host. -/
def runPhase (s : State) : Host.Outcome State Fault Refusal :=
  match s.phase with
  | .idle => takeCommand s
  | .exec i _ => exec i s.tick
  | .resp _ _ => .next s.tick

/-- A rising edge of `clk` (R161). Before the first reset a waiting command faults (U1); with none the block is
left as it is. -/
def blockMove (s : State) : Host.Outcome State Fault Refusal :=
  if s.rst then .next s.resetEdge
  else match s.boot with
    | .unreset => if s.cmdQ.isEmpty && s.phase = .idle then .next s else .fault .beforeFirstReset
    | .fresh => runPhase s
    | .ready => runPhase s

/-- Move (1) of R160 alone, for a word offered in IDLE: the block enters EXEC(cmd), or RESP(ILLEGAL, 0). -/
def acceptCommand (s : State) : Host.Outcome State Fault Refusal :=
  match s.cmdQ with
  | [] => .next s.tick
  | w :: rest =>
    match decode s.cfg.n w with
    | some i => .next (s.beginCommand i rest)
    | none => .next (State.raise { s with cmdQ := rest, boot := .ready } .illegal)

/-- The same, by phase: outside IDLE such an edge moves nothing. DESIGN CHOICE (log entry 32): in EXEC of a PARSE or a
WRW with a beat offered and `hin_ready` or `din_ready` at 1 it transfers no beat. R82 says that a beat transfers on an
edge with valid and ready at 1; U5 allows a cycle with no move, and the model follows U5 here. A `block` turn
transfers. -/
def acceptPhase (s : State) : Host.Outcome State Fault Refusal :=
  match s.phase with
  | .idle => acceptCommand s
  | .exec _ _ => .next s.tick
  | .resp _ _ => .next s.tick

/-- A rising edge on which the block takes at most a command word (log entry 3). -/
def acceptMove (s : State) : Host.Outcome State Fault Refusal :=
  if s.rst then .next s.resetEdge
  else match s.boot with
    | .unreset => if s.cmdQ.isEmpty && s.phase = .idle then .next s else .fault .beforeFirstReset
    | .fresh => acceptPhase s
    | .ready => acceptPhase s

/-- The state in which the block's very next move takes the word `w`: it is first on `cmd`, the block is in IDLE with
nothing pending, rst is 0, a reset has happened, and the block moves next (log entries 13, 14). -/
def offerNext (s : State) (w : CmdWord) : State :=
  { s with
    cmdQ := w :: s.cmdQ
    phase := .idle
    rspQ := []
    houtQ := []
    houtLog := cutRecord s.houtLog
    rst := false
    boot := match s.boot with
      | .unreset => .fresh
      | .fresh => .fresh
      | .ready => .ready
    turns := [] }

end Sys2Proof.Machine
end

