-- ==== Sys2Proof/Machine/Ports.lean ====
section
/-! DEFINITION. The outputs of the block (10_state.md R41, R46; 30_encoding.md R82 to R86). While rst = 1 every ready
and valid output is 0 (70_reset_and_hazards.md R161), and a payload is 0 whenever its valid is 0 (R82). -/

namespace Sys2Proof.Machine

/-- The block answers on its channels: rst is 0 and a reset has happened. With rst = 1 every ready and valid is 0
(R161). DESIGN CHOICE (log entry 26): before the first reset with rst = 0, where the spec leaves the phase and with it
the outputs unspecified (10_state.md R35, U1), the model drives every ready, valid and payload output to 0, and a host
that is ready takes nothing. Unsafe: a device may drive anything there. -/
def State.running (s : State) : Bool := !s.rst && s.boot != .unreset

/-- `cmd_ready` is 1 exactly in phase IDLE (R43, R83). -/
def State.cmdReady (s : State) : Bool :=
  s.running && match s.phase with
    | .idle => true
    | .exec _ _ => false
    | .resp _ _ => false

/-- `din_ready` is raised only in EXEC of a WRW (R82); an index WRW does not accept takes no beat (R93). That it is 1
throughout that phase is a DESIGN CHOICE (log entry 27). -/
def State.dinReady (s : State) : Bool :=
  s.running && match s.phase with
    | .exec (.wrw _ idx) _ => decide (idx.toNat < s.cfg.n)
    | _ => false

/-- `hin_ready` is raised only in EXEC of a PARSE (R82). That it is 1 throughout that phase is a DESIGN CHOICE (log
entry 27): a receiver may raise or lower ready at any time. -/
def State.hinReady (s : State) : Bool :=
  s.running && match s.phase with
    | .exec (.parse _) _ => true
    | _ => false

/-- `rsp_valid`. -/
def State.rspValid (s : State) : Bool := s.running && !s.rspQ.isEmpty

/-- `rsp_status` and `rsp_data`: the offered beat, or 0. -/
def State.rspStatus (s : State) : BitVec 2 :=
  if s.running then match s.rspQ with
    | b :: _ => b.status.code
    | [] => 0#2
  else 0#2

/-- `rsp_data`. -/
def State.rspData (s : State) : Word :=
  if s.running then match s.rspQ with
    | b :: _ => b.data
    | [] => 0#64
  else 0#64

/-- `hout_valid`. -/
def State.houtValid (s : State) : Bool := s.running && !s.houtQ.isEmpty

/-- The offered hex-out beat, or 0. -/
def State.houtBeat (s : State) : HexBeat :=
  if s.running then match s.houtQ with
    | b :: _ => b
    | [] => ⟨0, 0, false⟩
  else ⟨0, 0, false⟩

/-- `hout_data[8*LANES-1:0]` (10_state.md R41). -/
def State.houtData (s : State) : BitVec s.cfg.lanes.dataWidth := s.houtBeat.dataBus s.cfg.lanes

/-- `hout_count[c-1:0]` (10_state.md R41). -/
def State.houtCount (s : State) : BitVec s.cfg.lanes.countWidth := s.houtBeat.countBus s.cfg.lanes

/-- `hout_last`. -/
def State.houtLast (s : State) : Bool := s.houtBeat.last

end Sys2Proof.Machine
end

