-- ==== Sys2Proof/Machine/HostSide.lean ====
section
/-! DEFINITION. The moves of the host: offering and taking beats, the reset input, and the protocol violations a
model refuses (30_encoding.md R82 to R87, 70_reset_and_hazards.md R161 to R167, 93_implementation_defined.md U3). -/

namespace Sys2Proof.Machine

/-- Whether a beat waits on a channel the host sends on. -/
def State.offered (s : State) : InChannel → Bool
  | .cmd => !s.cmdQ.isEmpty
  | .din => !s.dinQ.isEmpty
  | .hin => !s.hinQ.isEmpty

/-- Offering a command: legal once rst has been 0 for a rising edge after reset (R165). Before the first reset a
command faults (U1). DESIGN CHOICE (log entry 31): a command offered while rst = 1 and before the edge that resets is
queued; that edge drops it (R163), and if rst falls before any edge it stays offered and is taken. -/
def State.offerCmd (s : State) (w : CmdWord) : Host.Outcome State Fault Refusal :=
  match s.boot with
  | .ready => .next { s with cmdQ := s.cmdQ ++ [w] }
  | .fresh => .refused .commandBeforeRelease
  | .unreset => .fault .beforeFirstReset

/-- Offering a `hin` beat: its count is at most LANES (R84). What is offered is what the 8 * LANES wires of `hin_data`
carry (10_state.md R41). -/
def State.offerHin (s : State) (b : HexBeat) : Host.Outcome State Fault Refusal :=
  if b.count ≤ s.cfg.lanes.count then .next { s with hinQ := s.hinQ ++ [b.onBus s.cfg.lanes] }
  else .refused .hinCountTooLarge

/-- The host is ready on `rsp`: the offered response transfers and the block enters IDLE (move (4) of R160). With
none offered, or while `rsp_valid` is held at 0 (R161, log entry 26), nothing transfers. -/
def State.takeRsp (s : State) : State :=
  if s.running then
    match s.rspQ with
    | [] => s
    | b :: q => { s with rspQ := q, rspLog := s.rspLog ++ [b], phase := .idle }
  else s

/-- The host is ready on `hout`: the offered beat transfers. With none offered, or while `hout_valid` is held at 0
(R161, log entry 26), nothing does. -/
def State.takeHout (s : State) : State :=
  if s.running then
    match s.houtQ with
    | [] => s
    | b :: q => { s with houtQ := q, houtLog := s.houtLog ++ [.beat b] }
  else s

/-- One move of the host. -/
def hostMove (m : HostMove) (s : State) : Host.Outcome State Fault Refusal :=
  match m with
  | .offerCmd w => s.offerCmd w
  | .offerDin x => .next { s with dinQ := s.dinQ ++ [x] }
  | .offerHin b => s.offerHin b
  | .takeRsp => .next s.takeRsp
  | .takeHout => .next s.takeHout
  | .setRst level => .next { s with rst := level }
  | .dropValid ch => if s.offered ch then .refused (.droppedValid ch) else .next s
  | .changePayload ch => if s.offered ch then .refused (.changedPayload ch) else .next s
  | .offerStale ch => .refused (.staleBeat ch)

end Sys2Proof.Machine
end

