-- ==== Sys2Proof/Machine/Step.lean ====
section
/-! DEFINITION. One step of the machine: the next move of the schedule (log entry 4). -/

namespace Sys2Proof.Machine

/-- One move: the first of `turns`, and a move of the block when none is left (fairness, 70_reset_and_hazards.md
R171). A `block` or `accept` turn is a rising edge of `clk`; an `idle` turn is none and keeps the whole state (DESIGN
CHOICE, log entry 30). -/
def step (s : State) : Host.Outcome State Fault Refusal :=
  match s.turns with
  | [] => blockMove s
  | .block :: rest => blockMove (s.withTurns rest)
  | .accept :: rest => acceptMove (s.withTurns rest)
  | .idle :: rest => .next (s.withTurns rest)
  | .host m :: rest => hostMove m (s.withTurns rest)

/-- The state whose very next step takes and runs the command word of an opcode-table row (log entry 13). -/
def State.withFetchWord (s : State) (nbits w : Nat) : State := offerNext s (BitVec.ofNat 32 (w % 2 ^ nbits))

end Sys2Proof.Machine
end

