-- ==== Sys2Proof/Safety.lean ====
section
/-! DEFINITION. The terms claims are stated in: whose move is next, when the block waits, what a command may touch, the
invariant of the machine, and the end of a run with its observation (70_reset_and_hazards.md R166, R172). -/

namespace Sys2Proof.Machine

/-! ## Whose move is next -/

/-- The state from which the block makes the next step's move; `none` when the next move is not the block's. -/
def State.blockTurn (s : State) : Option State :=
  match s.turns with
  | [] => some s
  | .block :: rest => some (s.withTurns rest)
  | .accept :: _ => none
  | .idle :: _ => none
  | .host _ :: _ => none

/-- The block can act on a rising edge: rst is 0 and a reset has happened. -/
abbrev State.canRun (s : State) : Prop := s.rst = false ∧ s.boot ≠ .unreset

/-- Whether the command `i` in EXEC with temporaries `t` has a move (70_reset_and_hazards.md R160(2), R166). -/
def commandEnabled (s : State) (i : Instr) (t : Temps) : Bool :=
  match i with
  | .parse _ => !s.hinQ.isEmpty
  | .render _ => t != .packetSent || s.houtQ.isEmpty
  | .wrw _ idx => !s.dinQ.isEmpty || !decide (idx.toNat < s.cfg.n)
  | .zero _ | .add _ _ _ | .sub _ _ _ | .rdw _ _ => true

/-- Whether the block has an enabled move by R160: a word to take in IDLE, a command that need not wait in EXEC, and
never in RESP, where the move is the host's. -/
def State.enabled (s : State) : Bool :=
  match s.phase with
  | .idle => !s.cmdQ.isEmpty
  | .exec i t => commandEnabled s i t
  | .resp _ _ => false

/-! ## What a command touches -/

/-- The destination register of a command (10_state.md R32). -/
def destOf : Instr → Option Reg
  | .zero rd => some rd
  | .parse rd => some rd
  | .render _ => none
  | .add rd _ _ => some rd
  | .sub rd _ _ => some rd
  | .rdw _ _ => none
  | .wrw rd _ => some rd

/-- Every value register but `d` is unchanged. -/
def regsSameBut (s t : State) (d : Option Reg) : Prop := ∀ r : Reg, d ≠ some r → t.reg r = s.reg r

/-- Everything that is neither a value register, the phase nor a data channel is unchanged: the instantiation, the
offered commands, the reset input, the schedule and what the host has taken. -/
def controlSame (s t : State) : Prop :=
  t.cfg = s.cfg ∧ t.cmdQ = s.cmdQ ∧ t.rst = s.rst ∧ t.boot = s.boot ∧ t.turns = s.turns
    ∧ t.rspLog = s.rspLog ∧ t.houtLog = s.houtLog

/-- `din`, `hin` and `hout` are unchanged. -/
def dataChannelsSame (s t : State) : Prop := t.dinQ = s.dinQ ∧ t.hinQ = s.hinQ ∧ t.houtQ = s.houtQ

/-- The command ended with the one response beat (status, data) (30_encoding.md R86). -/
def responded (s t : State) (st : Status) (d : Word) : Prop :=
  t.phase = .resp st d ∧ t.rspQ = s.rspQ ++ [⟨st, d⟩]

/-! ## The invariant -/

/-- Each register holds exactly N words (10_state.md R30). -/
abbrev regsSized (s : State) : Prop :=
  s.v0.length = s.cfg.n ∧ s.v1.length = s.cfg.n ∧ s.v2.length = s.cfg.n ∧ s.v3.length = s.cfg.n

/-- The temporaries of a command in EXEC are that command's own (10_state.md R44). -/
def tempsFit (i : Instr) (t : Temps) : Bool :=
  match t with
  | .none => true
  | .text _ => match i with
    | .parse _ => true
    | _ => false
  | .packetSent => match i with
    | .render _ => true
    | _ => false

/-- The phase agrees with what the block offers (10_state.md R42, R43): a response is offered exactly in RESP, and it
is that response; hex-out beats are offered only while a RENDER waits for the host; the command in EXEC is legal. -/
def phaseFits (s : State) : Bool :=
  match s.phase with
  | .idle => s.rspQ.isEmpty && s.houtQ.isEmpty
  | .exec i t =>
    s.rspQ.isEmpty && i.wellFormed s.cfg.n && tempsFit i t && (s.houtQ.isEmpty || t == .packetSent)
  | .resp st d => s.rspQ == [⟨st, d⟩] && s.houtQ.isEmpty

/-- What the host has taken (`log`) and what is still offered on `hout` (`q`) make whole packets: while beats are
offered the final one is a last beat, and when none is, no packet is open (30_encoding.md R85,
70_reset_and_hazards.md R162). -/
def houtWhole (q : List HexBeat) (log : List HoutEntry) : Bool :=
  match q.getLast? with
  | some b => b.last
  | none => !packetOpen log

/-- The hex beats fit their wires, and those of `hout` make whole packets. -/
abbrev hexChannelsFit (s : State) : Prop :=
  (∀ b ∈ s.hinQ, b.fits s.cfg.lanes) ∧ (∀ b ∈ s.houtQ, b.fits s.cfg.lanes) ∧ houtWhole s.houtQ s.houtLog = true

/-- The invariant of the machine. -/
abbrev State.Inv (s : State) : Prop :=
  s.cfg.wf ∧ regsSized s ∧ phaseFits s = true ∧ hexChannelsFit s

/-! ## The end of a run (R172) -/

/-- The complete packets of the host's record, each read as a string. Beats after the last complete packet make none,
nor do the beats of a packet that a reset cut off (70_reset_and_hazards.md R162, log entry 28). `got` is what the
current packet has so far. -/
def packetsFrom (got : Str) : List HoutEntry → List Str
  | [] => []
  | .abandoned :: q => packetsFrom [] q
  | .beat b :: q => if b.last then (got ++ b.chars) :: packetsFrom [] q else packetsFrom (got ++ b.chars) q

/-- The packets of the host's record. -/
def packets (log : List HoutEntry) : List Str := packetsFrom [] log

/-- A run has ended: the host has nothing more to do, the block has been reset and is in IDLE, and every queue is empty
(R172). Before the first reset the phase is unspecified (10_state.md R35), so no run has ended (log entry 29). -/
def runEnded (s : State) : Bool :=
  s.turns.isEmpty && s.boot != .unreset && s.phase == .idle && s.cmdQ.isEmpty && s.dinQ.isEmpty && s.hinQ.isEmpty
    && s.rspQ.isEmpty && s.houtQ.isEmpty

/-- What is observed of a run that has ended (R172). -/
structure Observation where
  v0 : Value
  v1 : Value
  v2 : Value
  v3 : Value
  /-- The responses in command order. -/
  responses : List RspBeat
  /-- The `hout` packets, each read as a string. -/
  texts : List Str
  deriving DecidableEq, Repr

/-- The observation of a run; a run that has not ended has none. -/
def State.observe (s : State) : Option Observation :=
  if runEnded s then some ⟨s.v0, s.v1, s.v2, s.v3, s.rspLog, packets s.houtLog⟩ else none

/-- A run is safe so far: no step of it stopped with a fault or a refusal. -/
def safeOutcome : Host.Outcome State Fault Refusal → Bool
  | .next _ => true
  | .fault _ => false
  | .refused _ => false

end Sys2Proof.Machine
end

