-- ==== Sys2Proof/Certificates/Slice0/Obligations.lean ====
section
/-! DEFINITION. The statements for the provers. Each docstring names the rules of spec/ it formalises. Unless it says
otherwise a statement holds for every instantiation: N, LANES and the four behaviour rules are fields of `cfg`. -/

open Sys2Proof Sys2Proof.Machine

/-! ## Encoding -/

/-- R73: a word decodes to a command exactly when the command is legal on N words and the word is its encoding. -/
def Obligations.OneLegalEncodingPerCommand : Prop :=
  ∀ (n : Nat) (w : CmdWord) (i : Instr), decode n w = some i ↔ (i.wellFormed n = true ∧ w = encode i)

/-- R75, R78: decoding gives a row whose mask and match the word meets and whose "also requires" holds; it gives none
only when no row does; and no word meets two rows. -/
def Obligations.DecodingFollowsTheOpcodeTable : Prop :=
  ∀ (n : Nat) (w : CmdWord),
    (∀ i, decode n w = some i → selectsRow w i ∧ rowRequires n w i)
    ∧ (decode n w = none → ∀ i, ¬ (selectsRow w i ∧ rowRequires n w i))
    ∧ (∀ i j, selectsRow w i → selectsRow w j → rowMatch i = rowMatch j)

/-- R77: the three grounds of ILLEGAL are the words that do not decode, and the block answers such a word with
(ILLEGAL, 0), changing no register and moving no `din`, `hin` or `hout` beat. -/
def Obligations.IllegalWordChangesNothing : Prop :=
  (∀ (n : Nat) (w : CmdWord), illegalWord n w ↔ decode n w = none)
  ∧ ∀ (s b : State) (w : CmdWord) (rest : List CmdWord),
      s.blockTurn = some b → s.canRun → s.phase = .idle → s.cmdQ = w :: rest → illegalWord s.cfg.n w →
      ∃ t, step s = .next t ∧ responded b t .illegal 0#64 ∧ regsSameBut b t none ∧ dataChannelsSame b t
        ∧ t.cmdQ = rest ∧ t.cfg = b.cfg ∧ t.rst = b.rst ∧ t.turns = b.turns ∧ t.rspLog = b.rspLog
        ∧ t.houtLog = b.houtLog

/-- R80: the seven worked encodings, as assembler text, as words and as decoded commands (on 24 words). -/
def Obligations.WorkedEncodingsAgree : Prop :=
  ∀ e ∈ [("add v2, v0, v1", Instr.add .v2 .v0 .v1, 0x04840000#32),
         ("sub v3, v1, v2", Instr.sub .v3 .v1 .v2, 0x05D80000#32),
         ("zero v3", Instr.zero .v3, 0x01C00000#32),
         ("parse v0", Instr.parse .v0, 0x02000000#32),
         ("render v2", Instr.render .v2, 0x03200000#32),
         ("rdw v1, 4", Instr.rdw .v1 4#16, 0x06100004#32),
         ("wrw v3, 0x17", Instr.wrw .v3 0x17#16, 0x07C00017#32)],
    assemble e.1 = some e.2.1 ∧ encode e.2.1 = e.2.2 ∧ decode 24 e.2.2 = some e.2.1

/-! ## Steps -/

/-- R160(1), R83: in IDLE with a legal word offered, the block's move takes the word and runs the decoded command on
the state in which it has been taken. -/
def Obligations.StepRunsTheDecodedCommand : Prop :=
  ∀ (s b : State) (w : CmdWord) (rest : List CmdWord) (i : Instr),
    s.blockTurn = some b → s.canRun → s.phase = .idle → s.cmdQ = w :: rest → decode s.cfg.n w = some i →
    step s = exec i (b.beginCommand i rest)

/-- R160, R43: in EXEC the block's move is the command's; in RESP, and in IDLE with no word offered, an edge changes
nothing (only the model's record that rst has been 0 for an edge). U5: an idle turn keeps the whole state and only the
schedule advances (that it is no rising edge is log entry 30). U4: an `accept` turn takes at most a command word, in
IDLE, and starts it or answers ILLEGAL; elsewhere it moves nothing, and so transfers no beat (log entries 3, 32). -/
def Obligations.StepContinuesByPhase : Prop :=
  (∀ s b : State, s.blockTurn = some b → s.canRun →
    (∀ i tmp, s.phase = .exec i tmp → step s = exec i b.tick)
    ∧ (∀ st d, s.phase = .resp st d → step s = .next b.tick)
    ∧ (s.phase = .idle → s.cmdQ = [] → step s = .next b.tick))
  ∧ (∀ (s : State) (ts : List Turn), s.turns = .idle :: ts → step s = .next (s.withTurns ts))
  ∧ (∀ (s : State) (ts : List Turn), s.turns = .accept :: ts → s.canRun →
    (∀ i tmp, s.phase = .exec i tmp → step s = .next (s.withTurns ts).tick)
    ∧ (∀ st d, s.phase = .resp st d → step s = .next (s.withTurns ts).tick)
    ∧ (s.phase = .idle → s.cmdQ = [] → step s = .next (s.withTurns ts).tick)
    ∧ (∀ w rest i, s.phase = .idle → s.cmdQ = w :: rest → decode s.cfg.n w = some i →
        step s = .next { s.withTurns ts with cmdQ := rest, phase := .exec i .none, boot := .ready })
    ∧ (∀ w rest, s.phase = .idle → s.cmdQ = w :: rest → decode s.cfg.n w = none →
        step s = .next { s.withTurns ts with
          cmdQ := rest, phase := .resp .illegal 0#64, rspQ := s.rspQ ++ [⟨.illegal, 0#64⟩], boot := .ready }))

/-- Log entry 13 (the model's convention for loading a command): after `withFetchWord` the very next step runs the
command whose encoding was placed. -/
def Obligations.PlacedCommandRunsNext : Prop :=
  ∀ (s : State) (i : Instr), i.wellFormed s.cfg.n = true →
    step (s.withFetchWord 32 (encode i).toNat)
      = exec i ((s.withFetchWord 32 (encode i).toNat).beginCommand i s.cmdQ)

/-- R160, U4 (log entry 3): taking a word on one edge and executing on a later one ends in the same state as both on
one edge. -/
def Obligations.TakingApartFromExecutingIsUnobservable : Prop :=
  ∀ (s a : State) (ts : List Turn), s.canRun → s.phase = .idle →
    step (s.withTurns (.accept :: .block :: ts)) = .next a →
    step a = step (s.withTurns (.block :: ts))

/-- R148, R160(4): when the host takes the response the block is in IDLE, whatever the status was; registers, data
channels and offered commands are unchanged, and the beat has gone to the host. R60, R62, R82: a host that is ready on
`hout` takes the first offered beat to the end of its record, and nothing else changes; with nothing offered a take on
`rsp` or `hout` transfers nothing. R161: driving the reset input changes that input alone. -/
def Obligations.TakenResponseReturnsToIdle : Prop :=
  ∀ (s : State) (ts : List Turn),
    (∀ r : RspBeat,
      s.turns = .host .takeRsp :: ts → s.canRun → s.phase = .resp r.status r.data → s.rspQ = [r] →
      ∃ t, step s = .next t ∧ t.phase = .idle ∧ t.rspQ = [] ∧ t.rspLog = s.rspLog ++ [r] ∧ regsSameBut s t none
        ∧ dataChannelsSame s t ∧ t.cmdQ = s.cmdQ ∧ t.cfg = s.cfg ∧ t.houtLog = s.houtLog ∧ t.cmdReady = true)
    ∧ (∀ (b : HexBeat) (q : List HexBeat), s.turns = .host .takeHout :: ts → s.canRun → s.houtQ = b :: q →
      step s = .next { s.withTurns ts with houtQ := q, houtLog := s.houtLog ++ [.beat b] })
    ∧ (s.turns = .host .takeHout :: ts → s.houtQ = [] → step s = .next (s.withTurns ts))
    ∧ (s.turns = .host .takeRsp :: ts → s.rspQ = [] → step s = .next (s.withTurns ts))
    ∧ (∀ level, s.turns = .host (.setRst level) :: ts → step s = .next { s.withTurns ts with rst := level })

/-- R34, R161 to R163: a rising edge with rst = 1, whatever the phase, makes every word of every register 0 and every
queue empty and the phase IDLE, and emits no response; what the host already took it keeps, and a `hout` packet it had
begun to take is cut off without a last beat (the mark in the host's record is log entry 28). -/
def Obligations.ResetEdgeFromAnyState : Prop :=
  ∀ s : State, s.rst = true → (∃ b, s.blockTurn = some b) ∨ (∃ ts, s.turns = .accept :: ts) →
    ∃ t, step s = .next t ∧ (∀ r, (t.reg r).length = s.cfg.n ∧ ∀ j < s.cfg.n, t.word r j = 0#64)
      ∧ t.phase = .idle ∧ t.cmdQ = [] ∧ t.dinQ = [] ∧ t.hinQ = [] ∧ t.rspQ = [] ∧ t.houtQ = []
      ∧ t.cfg = s.cfg ∧ t.rst = true ∧ t.rspLog = s.rspLog
      ∧ (∀ log b, s.houtLog = log ++ [.beat b] → b.last = false → t.houtLog = s.houtLog ++ [.abandoned])
      ∧ ((∀ log b, s.houtLog = log ++ [.beat b] → b.last = true) → t.houtLog = s.houtLog)
      ∧ packets t.houtLog = packets s.houtLog

/-- R46: the state after reset, with the outputs of the block. That `rst` stands at 0 in it is log entry 20. -/
def Obligations.ResetStateOfEveryInstantiation : Prop :=
  ∀ (c : Config) (s : State), s = State.resetWith c →
    (∀ r, (s.reg r).length = c.n ∧ ∀ j < c.n, s.word r j = 0#64)
    ∧ s.phase = .idle ∧ s.cmdQ = [] ∧ s.dinQ = [] ∧ s.hinQ = [] ∧ s.rspQ = [] ∧ s.houtQ = []
    ∧ s.cmdReady = true ∧ s.dinReady = false ∧ s.hinReady = false ∧ s.rspValid = false ∧ s.houtValid = false
    ∧ s.rspStatus = 0#2 ∧ s.rspData = 0#64 ∧ s.houtBeat = ⟨0, 0, false⟩

/-- R161, R82: while rst = 1 every ready and valid output is 0 and taking transfers nothing; a payload is 0 whenever
its valid is 0. R86, R140, R85, R41, R42: with a beat offered and the block running, valid is 1 and the payload is that
of the first offered beat, with the status code of R140, and on `hout` with the widths of R41. -/
def Obligations.OutputsAreZeroWhenNotValid : Prop :=
  ∀ s : State,
    (s.rst = true → s.cmdReady = false ∧ s.dinReady = false ∧ s.hinReady = false ∧ s.rspValid = false
      ∧ s.houtValid = false ∧ s.takeRsp = s ∧ s.takeHout = s)
    ∧ (s.rspValid = false → s.rspStatus = 0#2 ∧ s.rspData = 0#64)
    ∧ (s.houtValid = false → s.houtBeat = ⟨0, 0, false⟩ ∧ s.houtData = 0 ∧ s.houtCount = 0 ∧ s.houtLast = false)
    ∧ (∀ b q, s.canRun → s.rspQ = b :: q → s.rspValid = true ∧ s.rspData = b.data
        ∧ s.rspStatus = match b.status with
          | .ok => 0#2
          | .decode => 1#2
          | .overflow => 2#2
          | .illegal => 3#2)
    ∧ (∀ b q, s.canRun → s.houtQ = b :: q → s.houtValid = true ∧ s.houtBeat = b ∧ s.houtLast = b.last
        ∧ s.houtData.toNat = b.data.toNat % 2 ^ (8 * s.cfg.lanes.count)
        ∧ (b.fits s.cfg.lanes → s.houtData.toNat = b.data.toNat ∧ s.houtCount.toNat = b.count))

/-- R82, R83, R43: `cmd_ready` is 1 exactly in IDLE, `din_ready` only in EXEC of a WRW, `hin_ready` only in EXEC of a
PARSE; so never two of them together. That `hin_ready` is 1 throughout EXEC of a PARSE (the other direction of its
clause) is the model's choice (log entry 27). -/
def Obligations.ReadyOutputsByPhase : Prop :=
  ∀ s : State, s.canRun →
    (s.cmdReady = true ↔ s.phase = .idle)
    ∧ (s.dinReady = true → ∃ rd idx tmp, s.phase = .exec (.wrw rd idx) tmp)
    ∧ (s.hinReady = true ↔ ∃ rd tmp, s.phase = .exec (.parse rd) tmp)
    ∧ ¬ (s.cmdReady = true ∧ s.dinReady = true) ∧ ¬ (s.cmdReady = true ∧ s.hinReady = true)
    ∧ ¬ (s.dinReady = true ∧ s.hinReady = true)

/-- U1, R35: before the first reset a command faults, when it is offered and when the block meets one, and there is
nothing to observe. With no command an edge leaves the block as it is (log entry 8). -/
def Obligations.CommandBeforeFirstResetFaults : Prop :=
  ∀ s : State, s.boot = .unreset →
    (∀ w ts, s.turns = .host (.offerCmd w) :: ts → step s = .fault .beforeFirstReset)
    ∧ (∀ b, s.blockTurn = some b → s.rst = false → s.cmdQ ≠ [] → step s = .fault .beforeFirstReset)
    ∧ (∀ ts, s.turns = .accept :: ts → s.rst = false → s.cmdQ ≠ [] → step s = .fault .beforeFirstReset)
    ∧ (∀ b, s.blockTurn = some b → s.rst = false → s.cmdQ = [] → s.phase = .idle → step s = .next b)
    ∧ s.observe = none

/-- U3, R82, R84, R163: each protocol violation of the host is refused by name; dropping valid or changing a payload
on a channel with no beat waiting is none. -/
def Obligations.ProtocolViolationsAreRefused : Prop :=
  ∀ (s : State) (ts : List Turn),
    (∀ ch, s.turns = .host (.dropValid ch) :: ts →
      step s = if s.offered ch then .refused (.droppedValid ch) else .next (s.withTurns ts))
    ∧ (∀ ch, s.turns = .host (.changePayload ch) :: ts →
      step s = if s.offered ch then .refused (.changedPayload ch) else .next (s.withTurns ts))
    ∧ (∀ ch, s.turns = .host (.offerStale ch) :: ts → step s = .refused (.staleBeat ch))
    ∧ (∀ b, s.turns = .host (.offerHin b) :: ts → s.cfg.lanes.count < b.count →
      step s = .refused .hinCountTooLarge)

/-- R167, R84, R165, R41: the host may offer data and packets at any time and commands once rst has been 0 for an edge;
an offered beat goes to the end of its queue, a `hin` beat with the 8 * LANES bits of its payload, and nothing else
changes. A command offered earlier is refused (the refusal is log entry 9). That data is queued also while rst = 1 and
before the first reset is the model's reading (log entry 12), and that a command is queued while rst = 1 before the
edge that resets is its choice (log entry 31). -/
def Obligations.OfferedBeatsAreQueued : Prop :=
  ∀ (s : State) (ts : List Turn),
    (∀ w, s.turns = .host (.offerCmd w) :: ts → s.boot = .ready →
      step s = .next { s.withTurns ts with cmdQ := s.cmdQ ++ [w] })
    ∧ (∀ w, s.turns = .host (.offerCmd w) :: ts → s.boot = .fresh → step s = .refused .commandBeforeRelease)
    ∧ (∀ x, s.turns = .host (.offerDin x) :: ts → step s = .next { s.withTurns ts with dinQ := s.dinQ ++ [x] })
    ∧ (∀ b, s.turns = .host (.offerHin b) :: ts → b.count ≤ s.cfg.lanes.count →
      ∃ b' : HexBeat, step s = .next { s.withTurns ts with hinQ := s.hinQ ++ [b'] }
        ∧ b'.count = b.count ∧ b'.last = b.last ∧ b'.data.toNat = b.data.toNat % 2 ^ (8 * s.cfg.lanes.count)
        ∧ b'.chars = b.chars)

/-- R166, U9: a block with no enabled move waits. Its edge is no fault and no step past the wait: nothing changes but
the model's record that rst has been 0 for an edge. -/
def Obligations.WaitingBlockIsStuck : Prop :=
  ∀ s b : State, s.blockTurn = some b → s.canRun → s.enabled = false → step s = .next b.tick

/-- R171: an enabled block move changes the state, so a block that waits is one that R166 lets wait. -/
def Obligations.EnabledBlockMakesProgress : Prop :=
  ∀ s b : State, s.blockTurn = some b → s.canRun → s.enabled = true → ∃ t, step s = .next t ∧ t ≠ b.tick

/-- U3, R147: after the first reset a step stops only on a move of the host, and then by a refusal. -/
def Obligations.OnlyTheHostStopsARun : Prop :=
  ∀ s : State, s.boot ≠ .unreset →
    (∃ t, step s = .next t) ∨ ∃ m ts r, s.turns = .host m :: ts ∧ step s = .refused r

/-- R43, R61, R83: the offered commands change only by an offer at the end, by a reset, or by the block taking the
first one while `cmd_ready` is 1. -/
def Obligations.CommandTakenOnlyWhenReady : Prop :=
  ∀ s t : State, s.rst = false → step s = .next t →
    t.cmdQ = s.cmdQ ∨ (∃ w, t.cmdQ = s.cmdQ ++ [w]) ∨ (s.cmdReady = true ∧ ∃ w, s.cmdQ = w :: t.cmdQ)

/-- R30, R41, R42, R43, R44, R84, R85, R162: every step keeps the invariant: registers of N words, a response offered
exactly in RESP, hex-out beats only while a RENDER waits, a legal command in EXEC, hex beats as wide as their wires
with counts within LANES, and the host's record and the offered hex-out beats making whole packets. -/
def Obligations.StepKeepsTheInvariant : Prop :=
  ∀ s t : State, s.Inv → step s = .next t → t.Inv

/-- R9, R46: the invariant holds after reset, and before the first reset, for every instantiation. -/
def Obligations.InvariantAtReset : Prop :=
  ∀ c : Config, c.wf → (State.resetWith c).Inv ∧ (State.powerOn c).Inv

/-! ## Every command -/

/-- R33, R40, R58, R62: what a command leaves unchanged in a next state: every register but its destination, the
instantiation, the offered commands, the reset input, the schedule and what the host took; `din` unless it is WRW,
`hin` unless it is PARSE, `hout` unless it is RENDER. -/
def Obligations.CommandFrame : Prop :=
  ∀ (i : Instr) (s t : State), exec i s = .next t →
    regsSameBut s t (destOf i) ∧ controlSame s t
    ∧ ((∀ rd idx, i ≠ .wrw rd idx) → t.dinQ = s.dinQ)
    ∧ ((∀ rd, i ≠ .parse rd) → t.hinQ = s.hinQ)
    ∧ ((∀ ra, i ≠ .render ra) → t.houtQ = s.houtQ)

/-- R33: no register but the destination changes, the destination changes only with status OK, and with a destination
that is also a source the result is computed from the values held before. -/
def Obligations.DestinationChangesOnlyOnOk : Prop :=
  (∀ (i : Instr) (s t : State) (r : Reg), exec i s = .next t → t.reg r ≠ s.reg r →
    destOf i = some r ∧ t.phase = .resp .ok 0#64)
  ∧ (∀ (s t : State) (rd ra rb : Reg), exec (.add rd ra rb) s = .next t →
    t.reg rd = addValue s.cfg.carryRule (s.reg ra) (s.reg rb))
  ∧ (∀ (s t : State) (rd ra rb : Reg), exec (.sub rd ra rb) s = .next t →
    t.reg rd = subValue s.cfg.borrowRule (s.reg ra) (s.reg rb))

/-- R86: a move of a command in EXEC either leaves it in EXEC with no response, or ends it with exactly one response
beat, whose data is 0 unless the command is an RDW that completes OK. -/
def Obligations.OneResponsePerCommand : Prop :=
  ∀ (i : Instr) (tmp : Temps) (s t : State), s.phase = .exec i tmp → exec i s = .next t →
    ((∃ tmp', t.phase = .exec i tmp') ∧ t.rspQ = s.rspQ)
    ∨ ∃ st d, responded s t st d ∧ (d ≠ 0#64 → st = .ok ∧ ∃ ra idx, i = .rdw ra idx)

/-- R144: the statuses each command can return. -/
def Obligations.StatusesOfEachCommand : Prop :=
  ∀ (i : Instr) (tmp : Temps) (s t : State) (st : Status) (d : Word),
    s.phase = .exec i tmp → exec i s = .next t → t.phase = .resp st d →
    match i with
    | .zero _ | .render _ | .add _ _ _ | .sub _ _ _ => st = .ok
    | .parse _ => st = .ok ∨ st = .decode ∨ st = .overflow
    | .rdw _ idx | .wrw _ idx => st = if idx.toNat < s.cfg.n then .ok else .illegal

/-! ## ZERO, RDW, WRW -/

/-- R91: ZERO completes OK in every state; every word of V[rd] is 0 and no other register changes. -/
def Obligations.ZeroClearsItsDestination : Prop :=
  ∀ (s : State) (rd : Reg), ∃ t, exec (.zero rd) s = .next t ∧ responded s t .ok 0#64
    ∧ (t.reg rd).length = s.cfg.n ∧ (∀ j < s.cfg.n, t.word rd j = 0#64)
    ∧ regsSameBut s t (some rd) ∧ dataChannelsSame s t ∧ controlSame s t

/-- R92: RDW with idx < N responds OK with word idx; with idx >= N it responds (ILLEGAL, 0). No register changes. -/
def Obligations.RdwReadsOneWord : Prop :=
  ∀ (s : State) (ra : Reg) (idx : BitVec 16) (h : (s.reg ra).length = s.cfg.n),
    ∃ t, exec (.rdw ra idx) s = .next t ∧ regsSameBut s t none ∧ dataChannelsSame s t ∧ controlSame s t
      ∧ (∀ hi : idx.toNat < s.cfg.n, responded s t .ok ((s.reg ra)[idx.toNat]'(h ▸ hi)))
      ∧ (s.cfg.n ≤ idx.toNat → responded s t .illegal 0#64)

/-- R93: WRW with idx < N and a word offered on `din` takes it into word idx of V[rd], changes no other word and
responds (OK, 0). -/
def Obligations.WrwWritesOneWord : Prop :=
  ∀ (s : State) (rd : Reg) (idx : BitVec 16) (x : Word) (q : List Word),
    idx.toNat < s.cfg.n → (s.reg rd).length = s.cfg.n → s.dinQ = x :: q →
    ∃ t, exec (.wrw rd idx) s = .next t ∧ responded s t .ok 0#64 ∧ t.dinQ = q
      ∧ (t.reg rd).length = s.cfg.n
      ∧ (∀ j < s.cfg.n, t.word rd j = if j = idx.toNat then x else s.word rd j)
      ∧ regsSameBut s t (some rd) ∧ t.hinQ = s.hinQ ∧ t.houtQ = s.houtQ ∧ controlSame s t

/-- R93, R166(b): WRW waits while no word is offered, and with idx >= N it responds (ILLEGAL, 0) and takes no beat. -/
def Obligations.WrwWaitsAndRejects : Prop :=
  ∀ (s : State) (rd : Reg) (idx : BitVec 16),
    (idx.toNat < s.cfg.n → s.dinQ = [] → exec (.wrw rd idx) s = .next s)
    ∧ (s.cfg.n ≤ idx.toNat → ∃ t, exec (.wrw rd idx) s = .next t ∧ responded s t .illegal 0#64
        ∧ regsSameBut s t none ∧ dataChannelsSame s t ∧ controlSame s t)

/-! ## PARSE -/

/-- R103: PARSE with a whole packet offered that the parse function accepts: V[rd] becomes its value, the packet is
consumed through its last beat and no further, the response is (OK, 0). -/
def Obligations.ParseCommitsItsPacket : Prop :=
  ∀ (s : State) (rd : Reg) (ps rest : List HexBeat) (b : HexBeat) (v : Value),
    s.hinQ = ps ++ b :: rest → (∀ x ∈ ps, x.last = false) → b.last = true →
    hexparse s.cfg.n s.cfg.chunkRule (s.temps.received ++ (ps ++ [b]).flatMap HexBeat.chars) = .ok v →
    ∃ t, exec (.parse rd) s = .next t ∧ responded s t .ok 0#64 ∧ t.reg rd = v ∧ v.length = s.cfg.n
      ∧ t.hinQ = rest ∧ regsSameBut s t (some rd) ∧ t.dinQ = s.dinQ ∧ t.houtQ = s.houtQ ∧ controlSame s t

/-- R103, R141, R142: PARSE of a whole packet with a non-hex character responds (DECODE, 0), of one with only hex
characters and more than 16N of them (OVERFLOW, 0); the packet is consumed and no register changes. -/
def Obligations.ParseReportsItsErrors : Prop :=
  ∀ (s : State) (rd : Reg) (ps rest : List HexBeat) (b : HexBeat) (text : Str),
    s.hinQ = ps ++ b :: rest → (∀ x ∈ ps, x.last = false) → b.last = true →
    text = s.temps.received ++ (ps ++ [b]).flatMap HexBeat.chars →
    ((∃ c ∈ text, isHex c = false) → ∃ t, exec (.parse rd) s = .next t ∧ responded s t .decode 0#64
        ∧ t.hinQ = rest ∧ regsSameBut s t none ∧ controlSame s t)
    ∧ ((∀ c ∈ text, isHex c = true) → 16 * s.cfg.n < text.length →
        ∃ t, exec (.parse rd) s = .next t ∧ responded s t .overflow 0#64
          ∧ t.hinQ = rest ∧ regsSameBut s t none ∧ controlSame s t)

/-- R160(2), R169: with beats offered but no last one, PARSE takes them, stays in EXEC with the characters gathered so
far, gives no response and changes no register. -/
def Obligations.ParseGathersAnUnfinishedPacket : Prop :=
  ∀ (s : State) (rd : Reg), s.hinQ ≠ [] → (∀ x ∈ s.hinQ, x.last = false) →
    ∃ t, exec (.parse rd) s = .next t ∧ t.hinQ = []
      ∧ t.phase = .exec (.parse rd) (.text (s.temps.received ++ s.hinQ.flatMap HexBeat.chars))
      ∧ t.rspQ = s.rspQ ∧ regsSameBut s t none ∧ t.dinQ = s.dinQ ∧ t.houtQ = s.houtQ ∧ controlSame s t

/-- R55: two instantiations that differ in LANES, given packets that carry the same string in whatever beats, leave
the same registers and the same response. -/
def Obligations.ParseDoesNotDependOnBeatCuts : Prop :=
  ∀ (s s' t t' : State) (rd : Reg) (ps ps' : List HexBeat) (b b' : HexBeat),
    s'.cfg.n = s.cfg.n → s'.cfg.chunkRule = s.cfg.chunkRule → (∀ r, s'.reg r = s.reg r) →
    s.hinQ = ps ++ [b] → s'.hinQ = ps' ++ [b'] → (∀ x ∈ ps, x.last = false) → (∀ x ∈ ps', x.last = false) →
    b.last = true → b'.last = true → s.temps.received = [] → s'.temps.received = [] →
    (ps ++ [b]).flatMap HexBeat.chars = (ps' ++ [b']).flatMap HexBeat.chars →
    exec (.parse rd) s = .next t → exec (.parse rd) s' = .next t' →
    (∀ r, t'.reg r = t.reg r) ∧ t'.phase = t.phase

/-- R96, R102: the parse function answers DECODE exactly when a character is not a hex digit, however long the
string is. -/
def Obligations.ParseDecodeErrorIffNonHex : Prop :=
  ∀ (n : Nat) (r : ChunkRule) (text : Str), hexparse n r text = .decode ↔ ∃ c ∈ text, isHex c = false

/-- R105: for a string of hex digits, OVERFLOW depends on the length only, and there are ceil(L/16) chunks, at most N
when the parse succeeds. -/
def Obligations.ParseOverflowDependsOnLength : Prop :=
  ∀ (n : Nat) (r : ChunkRule) (text : Str), (∀ c ∈ text, isHex c = true) →
    (hexparse n r text = .overflow ↔ 16 * n < text.length)
    ∧ (chunks (padBytes (toBytes (padOdd text)))).length = (text.length + 15) / 16
    ∧ (∀ v, hexparse n r text = .ok v → (text.length + 15) / 16 ≤ n)

/-- R106: the value a string of at most 16N hex digits parses to, under FROM_END the number it denotes, under
FROM_START the same with its low K words reversed; the two agree when K <= 1 and when those words read the same in
both directions. -/
def Obligations.ParsedValue : Prop :=
  ∀ (n : Nat) (text : Str) (k : Nat) (c : Value),
    (∀ x ∈ text, isHex x = true) → text.length ≤ 16 * n → k = (text.length + 15) / 16 →
    c = words n (digitsVal text) →
    hexparse n .fromEnd text = .ok c ∧ val c = digitsVal text
    ∧ ∃ v, hexparse n .fromStart text = .ok v ∧ v.length = n
      ∧ (∀ i < k, v.getD (n - 1 - i) 0#64 = c.getD (n - k + i) 0#64)
      ∧ (∀ j < n - k, v.getD j 0#64 = 0#64)
      ∧ (text.length ≤ 16 → v = c)
      ∧ ((c.drop (n - k)).reverse = c.drop (n - k) → v = c)

/-- R104: the serial decoder gives exactly the parse function, for every string, N and CHUNK_RULE. -/
def Obligations.SerialDecoderIsTheParseFunction : Prop :=
  ∀ (n : Nat) (r : ChunkRule) (text : Str), hexparseSerial n r text = hexparse n r text

/-! ## RENDER -/

/-- R113: RENDER just taken produces the packet of its source's string on `hout`, gives no response yet and changes
no register. -/
def Obligations.RenderSendsItsPacket : Prop :=
  ∀ (s : State) (ra : Reg), s.phase = .exec (.render ra) .none →
    ∃ t, exec (.render ra) s = .next t
      ∧ t.houtQ = s.houtQ ++ sendHex s.cfg.lanes (hexrender s.cfg.renderRule (s.reg ra))
      ∧ (∃ tmp, t.phase = .exec (.render ra) tmp) ∧ t.rspQ = s.rspQ ∧ regsSameBut s t none
      ∧ t.dinQ = s.dinQ ∧ t.hinQ = s.hinQ ∧ controlSame s t

/-- R113, R169: after its packet RENDER waits while a beat is left, and responds (OK, 0) once the host has taken the
last one. -/
def Obligations.RenderRespondsAfterItsLastBeat : Prop :=
  ∀ (s : State) (ra : Reg), s.phase = .exec (.render ra) .packetSent →
    (s.houtQ ≠ [] → exec (.render ra) s = .next s)
    ∧ (s.houtQ = [] → ∃ t, exec (.render ra) s = .next t ∧ responded s t .ok 0#64 ∧ regsSameBut s t none
        ∧ dataChannelsSame s t ∧ controlSame s t)

/-- R113, R171, R172: from IDLE, with a RENDER offered and a host that takes every beat and the response, the command
runs to its end: the block is in IDLE again, the host has the packet of the source's string and one response (OK, 0),
and no register has changed; with no data left offered the run has ended and this is its observation. That it takes
k + 3 steps under this schedule rests on log entries 3, 4 and 17. -/
def Obligations.RenderRunsToItsEnd : Prop :=
  ∀ (s : State) (ra : Reg) (k : Nat), s.Inv → s.canRun → s.phase = .idle → s.cmdQ = [encode (.render ra)] →
    k = (sendHex s.cfg.lanes (hexrender s.cfg.renderRule (s.reg ra))).length →
    s.turns = .block :: (List.replicate k (.host .takeHout) ++ [.block, .host .takeRsp]) →
    ∃ t : State, Host.Core.run Sys2Proof.core (k + 3) s = .next t ∧ t.phase = .idle ∧ t.turns = [] ∧ t.cmdQ = []
      ∧ t.houtQ = [] ∧ t.rspQ = []
      ∧ t.houtLog = s.houtLog ++ (sendHex s.cfg.lanes (hexrender s.cfg.renderRule (s.reg ra))).map .beat
      ∧ t.rspLog = s.rspLog ++ [⟨.ok, 0#64⟩] ∧ regsSameBut s t none
      ∧ (s.dinQ = [] → s.hinQ = [] → t.observe = some
          { v0 := s.v0, v1 := s.v1, v2 := s.v2, v3 := s.v3, responses := s.rspLog ++ [⟨.ok, 0#64⟩],
            texts := packets s.houtLog ++ [hexrender s.cfg.renderRule (s.reg ra)] })

/-- R114: the rendered string is empty exactly for zero, begins with no '0', has only lowercase hex digits and at most
16N of them, under both rules. -/
def Obligations.RenderedForm : Prop :=
  ∀ (r : RenderRule) (n : Nat) (v : Value), v.length = n →
    (hexrender r v = [] ↔ v = zeroV n)
    ∧ (∀ c cs, hexrender r v = c :: cs → c ≠ 0x30#8)
    ∧ (∀ c ∈ hexrender r v,
        (0x30 ≤ c.toNat ∧ c.toNat ≤ 0x39) ∨ (0x61 ≤ c.toNat ∧ c.toNat ≤ 0x66))
    ∧ (v ≠ zeroV n → 1 ≤ (hexrender r v).length ∧ (hexrender r v).length ≤ 16 * n)
    ∧ hexrender r (words (n + 1) 0x123) = [0x31#8, 0x32#8, 0x33#8]

/-- R115: the number the rendered string denotes under each rule, when SKIP_ALL_ZERO denotes the value, and the
example of (c). -/
def Obligations.RenderedValue : Prop :=
  (∀ v : Value,
    digitsVal (hexrender .skipLeadingZero v) = val v
    ∧ digitsVal (hexrender .skipAllZero v) = val (v.filter (· ≠ 0#64))
    ∧ (digitsVal (hexrender .skipAllZero v) = val v ↔
        ∀ i j, i < j → j < v.length → v.getD i 0#64 ≠ 0#64 → v.getD j 0#64 ≠ 0#64))
  ∧ hexrender .skipAllZero [1#64, 0#64, 2#64] = 0x31#8 :: (List.replicate 15 0x30#8 ++ [0x32#8])
  ∧ hexrender .skipLeadingZero [1#64, 0#64, 2#64] = 0x31#8 :: (List.replicate 31 0x30#8 ++ [0x32#8])
  ∧ val [1#64, 2#64] = 2 ^ 64 + 2 ∧ val [1#64, 0#64, 2#64] = 2 ^ 128 + 2

/-- R116: the serial encoder gives the render function, under both rules. -/
def Obligations.SerialEncoderIsTheRenderFunction : Prop :=
  ∀ (r : RenderRule) (v : Value), renderSerial r false v = hexrender r v

/-- R117(a): under the CONTRACT rules, parsing a rendered value gives the value back, and rendering a parsed string
gives the string in lowercase without leading zeros. -/
def Obligations.ContractRoundTrips : Prop :=
  (∀ v : Value, hexparse v.length .fromEnd (hexrender .skipLeadingZero v) = .ok v)
  ∧ ∀ (n : Nat) (text : Str) (v : Value), (∀ c ∈ text, isHex c = true) → text.length ≤ 16 * n →
      hexparse n .fromEnd text = .ok v → hexrender .skipLeadingZero v = strip0 (text.map lower)

/-- R117(b): under the LITERAL rules a rendered value parses back to itself exactly when it is zero words followed by a
block of non-zero words that reads the same in both directions. (The rule's further remark on a single non-zero word
holds only where that word is word N-1: log entry 25.) -/
def Obligations.LiteralRoundTripExactlyWhen : Prop :=
  ∀ v : Value, hexparse v.length .fromStart (hexrender .skipAllZero v) = .ok v ↔
    ∃ (k : Nat) (b : Value), v = zeroV k ++ b ∧ (∀ w ∈ b, w ≠ 0#64) ∧ b.reverse = b

/-- R85: the beats of a packet: their number, their counts, the last flag, the lanes in use and the lanes driven 0. -/
def Obligations.HexOutPacketShape : Prop :=
  ∀ (l : Lanes) (text : Str) (nb : Nat), nb = max 1 ((text.length + l.count - 1) / l.count) →
    (sendHex l text).length = nb
    ∧ ∀ (k : Nat) (b : HexBeat), (sendHex l text)[k]? = some b →
        b.count = (if k + 1 = nb then text.length - l.count * (nb - 1) else l.count)
        ∧ (b.last = true ↔ k + 1 = nb)
        ∧ (∀ j < b.count, some (laneOf b.data j) = text[l.count * k + j]?)
        ∧ (∀ j, b.count ≤ j → laneOf b.data j = 0#8)

/-- R84, R85, R55: the packet of a string, taken as a packet, is the string, on every number of lanes. R162: after a
reset has cut off a packet, the next one is read whole and without the beats of the one cut off. -/
def Obligations.SentPacketIsReceivedWhole : Prop :=
  ∀ (l : Lanes) (text got : Str) (rest : List HexBeat) (log : List HoutEntry),
    recvHex got (sendHex l text ++ rest) = ⟨got ++ text, true, rest⟩
    ∧ packets ((sendHex l text).map .beat) = [text]
    ∧ packets (cutRecord log ++ (sendHex l text).map .beat) = packets log ++ [text]

/-! ## ADD and SUB -/

/-- R122, R121, R123, R125: ADD completes OK; word i of the result is the sum of the sources' words, as they were
before, and the carry from below modulo 2^64, the carry being 0 at the start and by CARRY_RULE from word to word;
the final carry goes nowhere. -/
def Obligations.AddResult : Prop :=
  ∀ (s : State) (rd ra rb : Reg), (s.reg ra).length = s.cfg.n → (s.reg rb).length = s.cfg.n →
    ∃ (t : State) (c : Nat → Nat), exec (.add rd ra rb) s = .next t ∧ responded s t .ok 0#64
      ∧ (t.reg rd).length = s.cfg.n ∧ c s.cfg.n = 0
      ∧ (∀ i < s.cfg.n,
          (t.word rd i).toNat = ((s.word ra i).toNat + (s.word rb i).toNat + c (i + 1)) % 2 ^ 64
          ∧ c i = match s.cfg.carryRule with
            | .sumEqMax => if (t.word rd i).toNat = 2 ^ 64 - 1 then 1 else 0
            | .exactCarry => if 2 ^ 64 ≤ (s.word ra i).toNat + (s.word rb i).toNat + c (i + 1) then 1 else 0)
      ∧ regsSameBut s t (some rd) ∧ dataChannelsSame s t ∧ controlSame s t

/-- R132, R131, R125: SUB completes OK; word i of the result is the minuend's word less the subtrahend's and the
borrow from below modulo 2^64, the borrow being 0 at the start and by BORROW_RULE from word to word. -/
def Obligations.SubResult : Prop :=
  ∀ (s : State) (rd ra rb : Reg), (s.reg ra).length = s.cfg.n → (s.reg rb).length = s.cfg.n →
    ∃ (t : State) (bo : Nat → Int), exec (.sub rd ra rb) s = .next t ∧ responded s t .ok 0#64
      ∧ (t.reg rd).length = s.cfg.n ∧ bo s.cfg.n = 0
      ∧ (∀ i < s.cfg.n,
          ((t.word rd i).toNat : Int) = ((s.word ra i).toNat - (s.word rb i).toNat - bo (i + 1)) % 2 ^ 64
          ∧ bo i = match s.cfg.borrowRule with
            | .topBit => if 2 ^ 63 ≤ (t.word rd i).toNat then 1 else 0
            | .exactBorrow => if ((s.word ra i).toNat - (s.word rb i).toNat - bo (i + 1) : Int) < 0 then 1 else 0)
      ∧ regsSameBut s t (some rd) ∧ dataChannelsSame s t ∧ controlSame s t

/-- R124: under EXACT_CARRY the sum is exact modulo 2^(64N), every word of it; zero is the identity, and addition
commutes and associates. -/
def Obligations.ExactAddition : Prop :=
  ∀ (n : Nat) (a b c : Value), a.length = n → b.length = n → c.length = n →
    val (addValue .exactCarry a b) = (val a + val b) % 2 ^ (64 * n)
    ∧ addValue .exactCarry a b = words n (val a + val b)
    ∧ addValue .exactCarry a (zeroV n) = a
    ∧ addValue .exactCarry a b = addValue .exactCarry b a
    ∧ addValue .exactCarry (addValue .exactCarry a b) c = addValue .exactCarry a (addValue .exactCarry b c)

/-- R133: under EXACT_BORROW the difference is exact modulo 2^(64N); zero is the right identity, x - x is zero, it
undoes the exact addition, and for b > a it is 2^(64N) + a - b. -/
def Obligations.ExactSubtraction : Prop :=
  ∀ (n : Nat) (a b : Value), a.length = n → b.length = n →
    (val (subValue .exactBorrow a b) : Int) = ((val a : Int) - val b) % 2 ^ (64 * n)
    ∧ subValue .exactBorrow a (zeroV n) = a
    ∧ subValue .exactBorrow a a = zeroV n
    ∧ subValue .exactBorrow (addValue .exactCarry a b) b = a
    ∧ (val a < val b → val (subValue .exactBorrow a b) = 2 ^ (64 * n) + val a - val b)

/-- R126(a), (b), (c), (h): under SUM_EQ_MAX the lowest word is always right, one word is exact, the carry into a word
is 1 exactly when the result word below is MAX64, and addition commutes. -/
def Obligations.SumEqMaxAddition : Prop :=
  ∀ (n : Nat) (a b y : Value), a.length = n → b.length = n → y = addValue .sumEqMax a b →
    (∀ i < n, y.getD i 0#64 = a.getD i 0#64 + b.getD i 0#64
        + (if i + 1 < n ∧ y.getD (i + 1) 0#64 = max64 then 1#64 else 0#64))
    ∧ (n = 1 → val y = (val a + val b) % 2 ^ 64)
    ∧ addValue .sumEqMax b a = y

/-- R126(d), (e), (f): on which word steps SUM_EQ_MAX gives the exact carry, when it carries wrongly and when it
misses a carry. -/
def Obligations.SumEqMaxAgainstExactCarry : Prop :=
  ∀ (x y : Word) (c : Bool) (t : Nat) (s : Word) (cm ce : Bool),
    t = addSum x y c → s = addWord x y c → cm = carryOut .sumEqMax t s → ce = carryOut .exactCarry t s →
    (cm = ce ↔ (t < 2 ^ 64 ∧ t % 2 ^ 64 ≠ 2 ^ 64 - 1) ∨ t = 2 ^ 65 - 1)
    ∧ (cm = true ∧ ce = false ↔ t = 2 ^ 64 - 1)
    ∧ (cm = false ∧ ce = true ↔ 2 ^ 64 ≤ t ∧ t < 2 ^ 65 - 1)

/-- R126(g): under SUM_EQ_MAX the sum is exact exactly when at every word step but the topmost the carry is the exact
one. The steps are those of the loop on the words below. -/
def Obligations.SumEqMaxExactIff : Prop :=
  ∀ (n : Nat) (a b : Value), a.length = n → b.length = n →
    (val (addValue .sumEqMax a b) = (val a + val b) % 2 ^ (64 * n) ↔
      ∀ i t : Nat, 1 ≤ i → i < n →
        t = addSum (a.getD i 0#64) (b.getD i 0#64) (addLoop .sumEqMax (a.drop (i + 1)) (b.drop (i + 1))).out →
        (t < 2 ^ 64 ∧ t % 2 ^ 64 ≠ 2 ^ 64 - 1) ∨ t = 2 ^ 65 - 1)

/-- R134(a), (b): under TOP_BIT the lowest word is always right and one word is exact; and the borrow into a word is
bit 63 of the result word below (R131). -/
def Obligations.TopBitSubtraction : Prop :=
  ∀ (n : Nat) (a b y : Value), a.length = n → b.length = n → y = subValue .topBit a b →
    (∀ i < n, y.getD i 0#64 = a.getD i 0#64 - b.getD i 0#64
        - (if i + 1 < n ∧ (y.getD (i + 1) 0#64).msb = true then 1#64 else 0#64))
    ∧ (n = 1 → (val y : Int) = ((val a : Int) - val b) % 2 ^ 64)

/-- R134(c), (d), (e): on which word steps TOP_BIT gives the exact borrow, when it borrows wrongly and when it misses
a borrow. -/
def Obligations.TopBitAgainstExactBorrow : Prop :=
  ∀ (x y : Word) (bo : Bool) (t : Int) (d : Word) (bt be : Bool),
    t = subDiff x y bo → d = subWord x y bo → bt = borrowOut .topBit t d → be = borrowOut .exactBorrow t d →
    (bt = be ↔ -2 ^ 63 ≤ t ∧ t ≤ 2 ^ 63 - 1)
    ∧ (bt = true ∧ be = false ↔ 2 ^ 63 ≤ t ∧ t ≤ 2 ^ 64 - 1)
    ∧ (bt = false ∧ be = true ↔ -2 ^ 64 ≤ t ∧ t < -2 ^ 63)

/-- R134(f): under TOP_BIT the difference is exact exactly when at every word step but the topmost the true difference
fits a signed 64-bit integer. -/
def Obligations.TopBitExactIff : Prop :=
  ∀ (n : Nat) (a b : Value), a.length = n → b.length = n →
    ((val (subValue .topBit a b) : Int) = ((val a : Int) - val b) % 2 ^ (64 * n) ↔
      ∀ (i : Nat) (t : Int), 1 ≤ i → i < n →
        t = subDiff (a.getD i 0#64) (b.getD i 0#64) (subLoop .topBit (a.drop (i + 1)) (b.drop (i + 1))).out →
        -2 ^ 63 ≤ t ∧ t ≤ 2 ^ 63 - 1)

/-- R135: x - x is zero under either BORROW_RULE, and SUB of a register from itself completes OK with zero. -/
def Obligations.SubtractingARegisterFromItself : Prop :=
  ∀ (s : State) (rd ra : Reg), (s.reg ra).length = s.cfg.n →
    ∃ t, exec (.sub rd ra ra) s = .next t ∧ responded s t .ok 0#64 ∧ t.reg rd = zeroV s.cfg.n

/-- R127, R135: the counterexamples to identity and inverse under the default rules, on two words. -/
def Obligations.LiteralRuleCounterexamples : Prop :=
  addValue .sumEqMax [0#64, max64] (zeroV 2) = [1#64, max64]
  ∧ (∀ r, subValue r (addValue .sumEqMax (zeroV 2) [0#64, max64]) [0#64, max64] = [1#64, 0#64])
  ∧ subValue .topBit [0#64, 0x8000000000000000#64] (zeroV 2) = [max64, 0x8000000000000000#64]
  ∧ subValue .topBit (zeroV 2) [0#64, 0x8000000000000001#64] = [0#64, 0x7FFFFFFFFFFFFFFF#64]
  ∧ subValue .exactBorrow (zeroV 2) [0#64, 0x8000000000000001#64] = [max64, 0x7FFFFFFFFFFFFFFF#64]
end

