-- ==== Sys2Proof/Laws/State.lean ====
section
/-! SUPPORT. One small lemma per field and state update, so that no later proof unfolds a record update. -/

namespace Sys2Proof.Machine

variable (s : State)

/-! ## `setReg` and `setWord` -/

@[simp] theorem State.setReg_cfg (r : Reg) (v : Value) : (s.setReg r v).cfg = s.cfg := by cases r <;> rfl
@[simp] theorem State.setWord_cfg (r : Reg) (j : Nat) (x : Word) : (s.setWord r j x).cfg = s.cfg := by cases r <;> rfl
@[simp] theorem State.setReg_phase (r : Reg) (v : Value) : (s.setReg r v).phase = s.phase := by cases r <;> rfl
@[simp] theorem State.setWord_phase (r : Reg) (j : Nat) (x : Word) : (s.setWord r j x).phase = s.phase := by cases r <;> rfl
@[simp] theorem State.setReg_cmdQ (r : Reg) (v : Value) : (s.setReg r v).cmdQ = s.cmdQ := by cases r <;> rfl
@[simp] theorem State.setWord_cmdQ (r : Reg) (j : Nat) (x : Word) : (s.setWord r j x).cmdQ = s.cmdQ := by cases r <;> rfl
@[simp] theorem State.setReg_dinQ (r : Reg) (v : Value) : (s.setReg r v).dinQ = s.dinQ := by cases r <;> rfl
@[simp] theorem State.setWord_dinQ (r : Reg) (j : Nat) (x : Word) : (s.setWord r j x).dinQ = s.dinQ := by cases r <;> rfl
@[simp] theorem State.setReg_hinQ (r : Reg) (v : Value) : (s.setReg r v).hinQ = s.hinQ := by cases r <;> rfl
@[simp] theorem State.setWord_hinQ (r : Reg) (j : Nat) (x : Word) : (s.setWord r j x).hinQ = s.hinQ := by cases r <;> rfl
@[simp] theorem State.setReg_rspQ (r : Reg) (v : Value) : (s.setReg r v).rspQ = s.rspQ := by cases r <;> rfl
@[simp] theorem State.setWord_rspQ (r : Reg) (j : Nat) (x : Word) : (s.setWord r j x).rspQ = s.rspQ := by cases r <;> rfl
@[simp] theorem State.setReg_houtQ (r : Reg) (v : Value) : (s.setReg r v).houtQ = s.houtQ := by cases r <;> rfl
@[simp] theorem State.setWord_houtQ (r : Reg) (j : Nat) (x : Word) : (s.setWord r j x).houtQ = s.houtQ := by cases r <;> rfl
@[simp] theorem State.setReg_rst (r : Reg) (v : Value) : (s.setReg r v).rst = s.rst := by cases r <;> rfl
@[simp] theorem State.setWord_rst (r : Reg) (j : Nat) (x : Word) : (s.setWord r j x).rst = s.rst := by cases r <;> rfl
@[simp] theorem State.setReg_boot (r : Reg) (v : Value) : (s.setReg r v).boot = s.boot := by cases r <;> rfl
@[simp] theorem State.setWord_boot (r : Reg) (j : Nat) (x : Word) : (s.setWord r j x).boot = s.boot := by cases r <;> rfl
@[simp] theorem State.setReg_turns (r : Reg) (v : Value) : (s.setReg r v).turns = s.turns := by cases r <;> rfl
@[simp] theorem State.setWord_turns (r : Reg) (j : Nat) (x : Word) : (s.setWord r j x).turns = s.turns := by cases r <;> rfl
@[simp] theorem State.setReg_rspLog (r : Reg) (v : Value) : (s.setReg r v).rspLog = s.rspLog := by cases r <;> rfl
@[simp] theorem State.setWord_rspLog (r : Reg) (j : Nat) (x : Word) : (s.setWord r j x).rspLog = s.rspLog := by cases r <;> rfl
@[simp] theorem State.setReg_houtLog (r : Reg) (v : Value) : (s.setReg r v).houtLog = s.houtLog := by cases r <;> rfl
@[simp] theorem State.setWord_houtLog (r : Reg) (j : Nat) (x : Word) : (s.setWord r j x).houtLog = s.houtLog := by cases r <;> rfl

@[simp] theorem State.reg_setReg_same (r : Reg) (v : Value) : (s.setReg r v).reg r = v := by cases r <;> rfl

theorem State.reg_setReg_of_ne (v : Value) {r r' : Reg} (h : r' ≠ r) : (s.setReg r v).reg r' = s.reg r' := by
  cases r <;> cases r' <;> first | rfl | exact absurd rfl h

@[simp] theorem State.reg_setWord_same (r : Reg) (j : Nat) (x : Word) :
    (s.setWord r j x).reg r = (s.reg r).set j x := by simp [State.setWord]

theorem State.reg_setWord_of_ne (j : Nat) (x : Word) {r r' : Reg} (h : r' ≠ r) :
    (s.setWord r j x).reg r' = s.reg r' := State.reg_setReg_of_ne s _ h

/-- A register read depends on the four register fields alone. -/
theorem State.reg_congr {s t : State} (h0 : t.v0 = s.v0) (h1 : t.v1 = s.v1) (h2 : t.v2 = s.v2) (h3 : t.v3 = s.v3)
    (r : Reg) : t.reg r = s.reg r := by cases r <;> assumption

/-! ## `sendRsp` and `raise` -/

@[simp] theorem State.sendRsp_cfg (st : Status) (d : Word) : (s.sendRsp st d).cfg = s.cfg := rfl
@[simp] theorem State.sendRsp_v0 (st : Status) (d : Word) : (s.sendRsp st d).v0 = s.v0 := rfl
@[simp] theorem State.sendRsp_v1 (st : Status) (d : Word) : (s.sendRsp st d).v1 = s.v1 := rfl
@[simp] theorem State.sendRsp_v2 (st : Status) (d : Word) : (s.sendRsp st d).v2 = s.v2 := rfl
@[simp] theorem State.sendRsp_v3 (st : Status) (d : Word) : (s.sendRsp st d).v3 = s.v3 := rfl
@[simp] theorem State.sendRsp_phase (st : Status) (d : Word) : (s.sendRsp st d).phase = .resp st d := rfl
@[simp] theorem State.sendRsp_cmdQ (st : Status) (d : Word) : (s.sendRsp st d).cmdQ = s.cmdQ := rfl
@[simp] theorem State.sendRsp_dinQ (st : Status) (d : Word) : (s.sendRsp st d).dinQ = s.dinQ := rfl
@[simp] theorem State.sendRsp_hinQ (st : Status) (d : Word) : (s.sendRsp st d).hinQ = s.hinQ := rfl
@[simp] theorem State.sendRsp_rspQ (st : Status) (d : Word) : (s.sendRsp st d).rspQ = s.rspQ ++ [⟨st, d⟩] := rfl
@[simp] theorem State.sendRsp_houtQ (st : Status) (d : Word) : (s.sendRsp st d).houtQ = s.houtQ := rfl
@[simp] theorem State.sendRsp_rst (st : Status) (d : Word) : (s.sendRsp st d).rst = s.rst := rfl
@[simp] theorem State.sendRsp_boot (st : Status) (d : Word) : (s.sendRsp st d).boot = s.boot := rfl
@[simp] theorem State.sendRsp_turns (st : Status) (d : Word) : (s.sendRsp st d).turns = s.turns := rfl
@[simp] theorem State.sendRsp_rspLog (st : Status) (d : Word) : (s.sendRsp st d).rspLog = s.rspLog := rfl
@[simp] theorem State.sendRsp_houtLog (st : Status) (d : Word) : (s.sendRsp st d).houtLog = s.houtLog := rfl
@[simp] theorem State.sendRsp_reg (st : Status) (d : Word) (r : Reg) : (s.sendRsp st d).reg r = s.reg r := by cases r <;> rfl

@[simp] theorem State.raise_cfg (e : Status) : (s.raise e).cfg = s.cfg := rfl
@[simp] theorem State.raise_v0 (e : Status) : (s.raise e).v0 = s.v0 := rfl
@[simp] theorem State.raise_v1 (e : Status) : (s.raise e).v1 = s.v1 := rfl
@[simp] theorem State.raise_v2 (e : Status) : (s.raise e).v2 = s.v2 := rfl
@[simp] theorem State.raise_v3 (e : Status) : (s.raise e).v3 = s.v3 := rfl
@[simp] theorem State.raise_phase (e : Status) : (s.raise e).phase = .resp e 0#64 := rfl
@[simp] theorem State.raise_cmdQ (e : Status) : (s.raise e).cmdQ = s.cmdQ := rfl
@[simp] theorem State.raise_dinQ (e : Status) : (s.raise e).dinQ = s.dinQ := rfl
@[simp] theorem State.raise_hinQ (e : Status) : (s.raise e).hinQ = s.hinQ := rfl
@[simp] theorem State.raise_rspQ (e : Status) : (s.raise e).rspQ = s.rspQ ++ [⟨e, 0#64⟩] := rfl
@[simp] theorem State.raise_houtQ (e : Status) : (s.raise e).houtQ = s.houtQ := rfl
@[simp] theorem State.raise_rst (e : Status) : (s.raise e).rst = s.rst := rfl
@[simp] theorem State.raise_boot (e : Status) : (s.raise e).boot = s.boot := rfl
@[simp] theorem State.raise_turns (e : Status) : (s.raise e).turns = s.turns := rfl
@[simp] theorem State.raise_rspLog (e : Status) : (s.raise e).rspLog = s.rspLog := rfl
@[simp] theorem State.raise_houtLog (e : Status) : (s.raise e).houtLog = s.houtLog := rfl
@[simp] theorem State.raise_reg (e : Status) (r : Reg) : (s.raise e).reg r = s.reg r := by cases r <;> rfl

/-! ## `tick`, `beginCommand`, `resetEdge` -/

@[simp] theorem State.tick_cfg : (s.tick).cfg = s.cfg := rfl
@[simp] theorem State.tick_v0 : (s.tick).v0 = s.v0 := rfl
@[simp] theorem State.tick_v1 : (s.tick).v1 = s.v1 := rfl
@[simp] theorem State.tick_v2 : (s.tick).v2 = s.v2 := rfl
@[simp] theorem State.tick_v3 : (s.tick).v3 = s.v3 := rfl
@[simp] theorem State.tick_phase : (s.tick).phase = s.phase := rfl
@[simp] theorem State.tick_cmdQ : (s.tick).cmdQ = s.cmdQ := rfl
@[simp] theorem State.tick_dinQ : (s.tick).dinQ = s.dinQ := rfl
@[simp] theorem State.tick_hinQ : (s.tick).hinQ = s.hinQ := rfl
@[simp] theorem State.tick_rspQ : (s.tick).rspQ = s.rspQ := rfl
@[simp] theorem State.tick_houtQ : (s.tick).houtQ = s.houtQ := rfl
@[simp] theorem State.tick_rst : (s.tick).rst = s.rst := rfl
@[simp] theorem State.tick_boot : (s.tick).boot = .ready := rfl
@[simp] theorem State.tick_turns : (s.tick).turns = s.turns := rfl
@[simp] theorem State.tick_rspLog : (s.tick).rspLog = s.rspLog := rfl
@[simp] theorem State.tick_houtLog : (s.tick).houtLog = s.houtLog := rfl
@[simp] theorem State.tick_reg (r : Reg) : s.tick.reg r = s.reg r := by cases r <;> rfl

@[simp] theorem State.beginCommand_cfg (i : Instr) (rest : List CmdWord) : (s.beginCommand i rest).cfg = s.cfg := rfl
@[simp] theorem State.beginCommand_v0 (i : Instr) (rest : List CmdWord) : (s.beginCommand i rest).v0 = s.v0 := rfl
@[simp] theorem State.beginCommand_v1 (i : Instr) (rest : List CmdWord) : (s.beginCommand i rest).v1 = s.v1 := rfl
@[simp] theorem State.beginCommand_v2 (i : Instr) (rest : List CmdWord) : (s.beginCommand i rest).v2 = s.v2 := rfl
@[simp] theorem State.beginCommand_v3 (i : Instr) (rest : List CmdWord) : (s.beginCommand i rest).v3 = s.v3 := rfl
@[simp] theorem State.beginCommand_phase (i : Instr) (rest : List CmdWord) : (s.beginCommand i rest).phase = .exec i .none := rfl
@[simp] theorem State.beginCommand_cmdQ (i : Instr) (rest : List CmdWord) : (s.beginCommand i rest).cmdQ = rest := rfl
@[simp] theorem State.beginCommand_dinQ (i : Instr) (rest : List CmdWord) : (s.beginCommand i rest).dinQ = s.dinQ := rfl
@[simp] theorem State.beginCommand_hinQ (i : Instr) (rest : List CmdWord) : (s.beginCommand i rest).hinQ = s.hinQ := rfl
@[simp] theorem State.beginCommand_rspQ (i : Instr) (rest : List CmdWord) : (s.beginCommand i rest).rspQ = s.rspQ := rfl
@[simp] theorem State.beginCommand_houtQ (i : Instr) (rest : List CmdWord) : (s.beginCommand i rest).houtQ = s.houtQ := rfl
@[simp] theorem State.beginCommand_rst (i : Instr) (rest : List CmdWord) : (s.beginCommand i rest).rst = s.rst := rfl
@[simp] theorem State.beginCommand_boot (i : Instr) (rest : List CmdWord) : (s.beginCommand i rest).boot = .ready := rfl
@[simp] theorem State.beginCommand_turns (i : Instr) (rest : List CmdWord) : (s.beginCommand i rest).turns = s.turns := rfl
@[simp] theorem State.beginCommand_rspLog (i : Instr) (rest : List CmdWord) : (s.beginCommand i rest).rspLog = s.rspLog := rfl
@[simp] theorem State.beginCommand_houtLog (i : Instr) (rest : List CmdWord) : (s.beginCommand i rest).houtLog = s.houtLog := rfl
@[simp] theorem State.beginCommand_reg (i : Instr) (rest : List CmdWord) (r : Reg) : (s.beginCommand i rest).reg r = s.reg r := by cases r <;> rfl
@[simp] theorem State.beginCommand_temps (i : Instr) (rest : List CmdWord) : (s.beginCommand i rest).temps = .none := rfl

@[simp] theorem State.resetEdge_cfg : (s.resetEdge).cfg = s.cfg := rfl
@[simp] theorem State.resetEdge_v0 : (s.resetEdge).v0 = zeroV s.cfg.n := rfl
@[simp] theorem State.resetEdge_v1 : (s.resetEdge).v1 = zeroV s.cfg.n := rfl
@[simp] theorem State.resetEdge_v2 : (s.resetEdge).v2 = zeroV s.cfg.n := rfl
@[simp] theorem State.resetEdge_v3 : (s.resetEdge).v3 = zeroV s.cfg.n := rfl
@[simp] theorem State.resetEdge_phase : (s.resetEdge).phase = .idle := rfl
@[simp] theorem State.resetEdge_cmdQ : (s.resetEdge).cmdQ = [] := rfl
@[simp] theorem State.resetEdge_dinQ : (s.resetEdge).dinQ = [] := rfl
@[simp] theorem State.resetEdge_hinQ : (s.resetEdge).hinQ = [] := rfl
@[simp] theorem State.resetEdge_rspQ : (s.resetEdge).rspQ = [] := rfl
@[simp] theorem State.resetEdge_houtQ : (s.resetEdge).houtQ = [] := rfl
@[simp] theorem State.resetEdge_rst : (s.resetEdge).rst = s.rst := rfl
@[simp] theorem State.resetEdge_boot : (s.resetEdge).boot = .fresh := rfl
@[simp] theorem State.resetEdge_turns : (s.resetEdge).turns = s.turns := rfl
@[simp] theorem State.resetEdge_rspLog : (s.resetEdge).rspLog = s.rspLog := rfl
@[simp] theorem State.resetEdge_houtLog : (s.resetEdge).houtLog = cutRecord s.houtLog := rfl
@[simp] theorem State.resetEdge_reg (r : Reg) : s.resetEdge.reg r = zeroV s.cfg.n := by cases r <;> rfl

/-! ## `withTurns` -/

@[simp] theorem State.withTurns_cfg (ts : List Turn) : (s.withTurns ts).cfg = s.cfg := rfl
@[simp] theorem State.withTurns_v0 (ts : List Turn) : (s.withTurns ts).v0 = s.v0 := rfl
@[simp] theorem State.withTurns_v1 (ts : List Turn) : (s.withTurns ts).v1 = s.v1 := rfl
@[simp] theorem State.withTurns_v2 (ts : List Turn) : (s.withTurns ts).v2 = s.v2 := rfl
@[simp] theorem State.withTurns_v3 (ts : List Turn) : (s.withTurns ts).v3 = s.v3 := rfl
@[simp] theorem State.withTurns_phase (ts : List Turn) : (s.withTurns ts).phase = s.phase := rfl
@[simp] theorem State.withTurns_cmdQ (ts : List Turn) : (s.withTurns ts).cmdQ = s.cmdQ := rfl
@[simp] theorem State.withTurns_dinQ (ts : List Turn) : (s.withTurns ts).dinQ = s.dinQ := rfl
@[simp] theorem State.withTurns_hinQ (ts : List Turn) : (s.withTurns ts).hinQ = s.hinQ := rfl
@[simp] theorem State.withTurns_rspQ (ts : List Turn) : (s.withTurns ts).rspQ = s.rspQ := rfl
@[simp] theorem State.withTurns_houtQ (ts : List Turn) : (s.withTurns ts).houtQ = s.houtQ := rfl
@[simp] theorem State.withTurns_rst (ts : List Turn) : (s.withTurns ts).rst = s.rst := rfl
@[simp] theorem State.withTurns_boot (ts : List Turn) : (s.withTurns ts).boot = s.boot := rfl
@[simp] theorem State.withTurns_turns (ts : List Turn) : (s.withTurns ts).turns = ts := rfl
@[simp] theorem State.withTurns_rspLog (ts : List Turn) : (s.withTurns ts).rspLog = s.rspLog := rfl
@[simp] theorem State.withTurns_houtLog (ts : List Turn) : (s.withTurns ts).houtLog = s.houtLog := rfl
@[simp] theorem State.withTurns_reg (ts : List Turn) (r : Reg) : (s.withTurns ts).reg r = s.reg r := by cases r <;> rfl
@[simp] theorem State.withTurns_temps (ts : List Turn) : (s.withTurns ts).temps = s.temps := rfl
@[simp] theorem State.withTurns_self : s.withTurns s.turns = s := rfl
@[simp] theorem State.tick_temps : s.tick.temps = s.temps := rfl

/-! ## `setDinQ` -/

@[simp] theorem State.setDinQ_cfg (q : List Word) : (s.setDinQ q).cfg = s.cfg := rfl
@[simp] theorem State.setDinQ_v0 (q : List Word) : (s.setDinQ q).v0 = s.v0 := rfl
@[simp] theorem State.setDinQ_v1 (q : List Word) : (s.setDinQ q).v1 = s.v1 := rfl
@[simp] theorem State.setDinQ_v2 (q : List Word) : (s.setDinQ q).v2 = s.v2 := rfl
@[simp] theorem State.setDinQ_v3 (q : List Word) : (s.setDinQ q).v3 = s.v3 := rfl
@[simp] theorem State.setDinQ_phase (q : List Word) : (s.setDinQ q).phase = s.phase := rfl
@[simp] theorem State.setDinQ_cmdQ (q : List Word) : (s.setDinQ q).cmdQ = s.cmdQ := rfl
@[simp] theorem State.setDinQ_dinQ (q : List Word) : (s.setDinQ q).dinQ = q := rfl
@[simp] theorem State.setDinQ_hinQ (q : List Word) : (s.setDinQ q).hinQ = s.hinQ := rfl
@[simp] theorem State.setDinQ_rspQ (q : List Word) : (s.setDinQ q).rspQ = s.rspQ := rfl
@[simp] theorem State.setDinQ_houtQ (q : List Word) : (s.setDinQ q).houtQ = s.houtQ := rfl
@[simp] theorem State.setDinQ_rst (q : List Word) : (s.setDinQ q).rst = s.rst := rfl
@[simp] theorem State.setDinQ_boot (q : List Word) : (s.setDinQ q).boot = s.boot := rfl
@[simp] theorem State.setDinQ_turns (q : List Word) : (s.setDinQ q).turns = s.turns := rfl
@[simp] theorem State.setDinQ_rspLog (q : List Word) : (s.setDinQ q).rspLog = s.rspLog := rfl
@[simp] theorem State.setDinQ_houtLog (q : List Word) : (s.setDinQ q).houtLog = s.houtLog := rfl
@[simp] theorem State.setDinQ_reg (q : List Word) (r : Reg) : (s.setDinQ q).reg r = s.reg r := by cases r <;> rfl
@[simp] theorem State.setDinQ_temps (q : List Word) : (s.setDinQ q).temps = s.temps := rfl

/-! ## `setHinQ` -/

@[simp] theorem State.setHinQ_cfg (q : List HexBeat) : (s.setHinQ q).cfg = s.cfg := rfl
@[simp] theorem State.setHinQ_v0 (q : List HexBeat) : (s.setHinQ q).v0 = s.v0 := rfl
@[simp] theorem State.setHinQ_v1 (q : List HexBeat) : (s.setHinQ q).v1 = s.v1 := rfl
@[simp] theorem State.setHinQ_v2 (q : List HexBeat) : (s.setHinQ q).v2 = s.v2 := rfl
@[simp] theorem State.setHinQ_v3 (q : List HexBeat) : (s.setHinQ q).v3 = s.v3 := rfl
@[simp] theorem State.setHinQ_phase (q : List HexBeat) : (s.setHinQ q).phase = s.phase := rfl
@[simp] theorem State.setHinQ_cmdQ (q : List HexBeat) : (s.setHinQ q).cmdQ = s.cmdQ := rfl
@[simp] theorem State.setHinQ_dinQ (q : List HexBeat) : (s.setHinQ q).dinQ = s.dinQ := rfl
@[simp] theorem State.setHinQ_hinQ (q : List HexBeat) : (s.setHinQ q).hinQ = q := rfl
@[simp] theorem State.setHinQ_rspQ (q : List HexBeat) : (s.setHinQ q).rspQ = s.rspQ := rfl
@[simp] theorem State.setHinQ_houtQ (q : List HexBeat) : (s.setHinQ q).houtQ = s.houtQ := rfl
@[simp] theorem State.setHinQ_rst (q : List HexBeat) : (s.setHinQ q).rst = s.rst := rfl
@[simp] theorem State.setHinQ_boot (q : List HexBeat) : (s.setHinQ q).boot = s.boot := rfl
@[simp] theorem State.setHinQ_turns (q : List HexBeat) : (s.setHinQ q).turns = s.turns := rfl
@[simp] theorem State.setHinQ_rspLog (q : List HexBeat) : (s.setHinQ q).rspLog = s.rspLog := rfl
@[simp] theorem State.setHinQ_houtLog (q : List HexBeat) : (s.setHinQ q).houtLog = s.houtLog := rfl
@[simp] theorem State.setHinQ_reg (q : List HexBeat) (r : Reg) : (s.setHinQ q).reg r = s.reg r := by cases r <;> rfl
@[simp] theorem State.setHinQ_temps (q : List HexBeat) : (s.setHinQ q).temps = s.temps := rfl

/-! ## Words of a register -/

@[simp] theorem zeroV_length (n : Nat) : (zeroV n).length = n := by simp [zeroV]

@[simp] theorem zeroV_getD (n j : Nat) : (zeroV n).getD j 0#64 = 0#64 := by
  simp only [zeroV, List.getD_eq_getElem?_getD, List.getElem?_replicate]
  split <;> rfl

theorem State.word_eq_getElem {r : Reg} {j : Nat} (h : j < (s.reg r).length) : s.word r j = (s.reg r)[j] := by
  simp [State.word, List.getD_eq_getElem?_getD, h]

/-! ## The ports -/

theorem State.running_of_canRun {s : State} (h1 : s.rst = false) (h2 : s.boot ≠ .unreset) : s.running = true := by
  simp [State.running, h1, h2]

/-- What taking a response does, when one is offered. -/
theorem State.takeRsp_cons {s : State} {b : RspBeat} {q : List RspBeat} (hr : s.running = true) (hq : s.rspQ = b :: q) :
    s.takeRsp = { s with rspQ := q, rspLog := s.rspLog ++ [b], phase := .idle } := by
  simp [State.takeRsp, hr, hq]

/-- What taking a hex-out beat does, when one is offered. -/
theorem State.takeHout_cons {s : State} {b : HexBeat} {q : List HexBeat} (hr : s.running = true) (hq : s.houtQ = b :: q) :
    s.takeHout = { s with houtQ := q, houtLog := s.houtLog ++ [.beat b] } := by
  simp [State.takeHout, hr, hq]

end Sys2Proof.Machine
end

