-- ==== Sys2Proof/Laws/Channels.lean ====
section
/-! SUPPORT. What `RecvHex` and `SendHex` do, said once: whole packets, unfinished packets, lanes. -/

namespace Sys2Proof.Machine

/-! ## `RecvHex` -/

/-- Beats before the last one of a packet are gathered. -/
theorem recvHex_append {ps : List HexBeat} (hps : ∀ b ∈ ps, b.last = false) (got : Str) (q : List HexBeat) :
    recvHex got (ps ++ q) = recvHex (got ++ ps.flatMap HexBeat.chars) q := by
  induction ps generalizing got with
  | nil => simp
  | cons b ps ih =>
    have hb : b.last = false := hps b (by simp)
    have ht : ∀ x ∈ ps, x.last = false := fun x hx => hps x (by simp [hx])
    simp [recvHex, hb, ih ht]

/-- A whole packet is taken through its last beat, and nothing after it. -/
theorem recvHex_packet {ps : List HexBeat} {b : HexBeat} (hps : ∀ x ∈ ps, x.last = false) (hb : b.last = true)
    (got : Str) (q : List HexBeat) :
    recvHex got (ps ++ b :: q) = ⟨got ++ (ps ++ [b]).flatMap HexBeat.chars, true, q⟩ := by
  rw [recvHex_append hps]
  simp [recvHex, hb]

/-- With no last beat offered, all beats are taken and the packet is not complete. -/
theorem recvHex_unfinished {ps : List HexBeat} (hps : ∀ x ∈ ps, x.last = false) (got : Str) :
    recvHex got ps = ⟨got ++ ps.flatMap HexBeat.chars, false, []⟩ := by
  have := recvHex_append hps got []
  simpa [recvHex] using this

/-- What `RecvHex` leaves was offered. -/
theorem recvHex_rest_subset (got : Str) (q : List HexBeat) : ∀ b ∈ (recvHex got q).rest, b ∈ q := by
  induction q generalizing got with
  | nil => simp [recvHex]
  | cons c q ih =>
    intro b hb
    simp only [recvHex] at hb
    split at hb
    · exact List.mem_cons_of_mem _ hb
    · exact List.mem_cons_of_mem _ (ih _ b hb)

/-! ## The wires of a beat (10_state.md R41) -/

/-- The width of a count field is c = log2(LANES) + 1. -/
theorem lanes_countWidth_eq (l : Lanes) : l.countWidth = Nat.log2 l.count + 1 := by cases l <;> decide

theorem lanes_count_lt (l : Lanes) : l.count < 2 ^ l.countWidth := by cases l <;> decide

theorem lanes_dataWidth_le (l : Lanes) : l.dataWidth ≤ 128 := by cases l <;> decide

@[simp] theorem HexBeat.onBus_count (l : Lanes) (b : HexBeat) : (b.onBus l).count = b.count := rfl
@[simp] theorem HexBeat.onBus_last (l : Lanes) (b : HexBeat) : (b.onBus l).last = b.last := rfl

theorem HexBeat.onBus_data (l : Lanes) (b : HexBeat) : (b.onBus l).data.toNat = b.data.toNat % 2 ^ l.dataWidth := by
  have h : 2 ^ l.dataWidth ≤ 2 ^ 128 := Nat.pow_le_pow_right (by decide) (lanes_dataWidth_le l)
  have : b.data.toNat % 2 ^ l.dataWidth < 2 ^ l.dataWidth := Nat.mod_lt _ (Nat.two_pow_pos _)
  simp only [HexBeat.onBus, HexBeat.dataBus, BitVec.toNat_setWidth]
  exact Nat.mod_eq_of_lt (by omega)

/-- An offered beat with a legal count fits its wires. -/
theorem HexBeat.onBus_fits {l : Lanes} {b : HexBeat} (h : b.count ≤ l.count) : (b.onBus l).fits l :=
  ⟨by rw [HexBeat.onBus_data]; exact Nat.mod_lt _ (Nat.two_pow_pos _), h⟩

/-- A beat that fits its wires is carried unchanged. -/
theorem HexBeat.onBus_of_fits {l : Lanes} {b : HexBeat} (h : b.fits l) : b.onBus l = b := by
  have hd : (b.onBus l).data = b.data :=
    BitVec.eq_of_toNat_eq (by rw [HexBeat.onBus_data, Nat.mod_eq_of_lt h.1])
  cases b
  simp_all [HexBeat.onBus]

/-- The wires carry every lane that holds a character. -/
theorem HexBeat.onBus_chars {l : Lanes} {b : HexBeat} (h : b.count ≤ l.count) : (b.onBus l).chars = b.chars := by
  have hw := (lanes_dataWidth_le l)
  apply List.map_congr_left
  intro k hk
  have hk : k < b.count := by simpa using hk
  apply BitVec.eq_of_getLsbD_eq
  intro i hi
  have hlt : 8 * k + i < l.dataWidth := by unfold Lanes.dataWidth; omega
  have h128 : 8 * k + i < 128 := by omega
  simp [laneOf, HexBeat.onBus, HexBeat.dataBus, hlt, h128]

/-! ## Lanes -/

@[simp] theorem packLanes_nil : packLanes [] = 0 := rfl

/-- Lane k of a packed payload is character k (30_encoding.md R85). -/
theorem laneOf_packLanes {s : Str} (hs : s.length ≤ 16) {k : Nat} (hk : k < s.length) :
    laneOf (packLanes s) k = s[k] := by
  induction s generalizing k with
  | nil => simp at hk
  | cons c cs ih =>
    have hcs : cs.length ≤ 16 := by simp at hs; omega
    simp only [List.length_cons] at hs hk
    apply BitVec.eq_of_getLsbD_eq
    intro i hi
    cases k with
    | zero =>
      simp only [laneOf, packLanes, BitVec.getLsbD_extractLsb', BitVec.getLsbD_or, BitVec.getLsbD_shiftLeft,
        BitVec.getLsbD_setWidth, List.getElem_cons_zero]
      simp [hi]
      omega
    | succ k =>
      have h := congrArg (fun v => v.getLsbD i) (ih hcs (k := k) (by omega))
      simp only [laneOf, BitVec.getLsbD_extractLsb', hi, decide_true, Bool.true_and] at h
      simp only [laneOf, packLanes, BitVec.getLsbD_extractLsb', BitVec.getLsbD_or, BitVec.getLsbD_shiftLeft,
        BitVec.getLsbD_setWidth, List.getElem_cons_succ, ← h]
      have e : 8 * (k + 1) + i - 8 = 8 * k + i := by omega
      have hl : 8 * (k + 1) + i < 128 := by omega
      have hc : c.getLsbD (8 * (k + 1) + i) = false := BitVec.getLsbD_of_ge _ _ (by omega)
      simp [hi, e, hl, hc]
      omega

/-- The lanes at and above the number of packed characters are 0. -/
theorem packLanes_lt (s : Str) : (packLanes s).toNat < 2 ^ (8 * s.length) := by
  induction s with
  | nil => decide
  | cons c cs ih =>
    have hc : c.toNat < 2 ^ (8 * (cs.length + 1)) :=
      Nat.lt_of_lt_of_le c.isLt (Nat.pow_le_pow_right (by decide) (by omega))
    simp only [packLanes, BitVec.toNat_or, BitVec.toNat_shiftLeft, BitVec.toNat_setWidth, List.length_cons]
    refine Nat.or_lt_two_pow (Nat.lt_of_le_of_lt (Nat.mod_le _ _) ?_) (Nat.lt_of_le_of_lt (Nat.mod_le _ _) hc)
    rw [Nat.shiftLeft_eq, show 8 * (cs.length + 1) = 8 * cs.length + 8 by omega, Nat.pow_add]
    exact Nat.mul_lt_mul_of_pos_right ih (by decide)

/-- The characters of a beat whose count is the length of the packed piece are that piece. -/
theorem chars_packed {s : Str} (hs : s.length ≤ 16) (l : Bool) :
    (HexBeat.mk (packLanes s) s.length l).chars = s := by
  apply List.ext_getElem
  · simp [HexBeat.chars]
  · intro k h1 h2
    simp [HexBeat.chars, laneOf_packLanes hs h2]

theorem lanes_count_pos (l : Lanes) : 0 < l.count := by cases l <;> decide

theorem lanes_count_le (l : Lanes) : l.count ≤ 16 := by cases l <;> decide

/-- A beat of a packet carries its piece of the string. -/
theorem chars_hexBeat (l : Lanes) (s : Str) (k : Nat) :
    (hexBeat l s k).chars = (s.drop (l.count * k)).take l.count := by
  apply chars_packed
  have := lanes_count_le l
  simp only [List.length_take]
  omega

/-- A beat of a packet fits its wires. -/
theorem hexBeat_fits (l : Lanes) (s : Str) (k : Nat) : (hexBeat l s k).fits l := by
  have hlen : ((s.drop (l.count * k)).take l.count).length ≤ l.count := by simp only [List.length_take]; omega
  exact ⟨Nat.lt_of_lt_of_le (packLanes_lt _) (Nat.pow_le_pow_right (by decide) (Nat.mul_le_mul_left 8 hlen)), hlen⟩

theorem sendHex_fits (l : Lanes) (s : Str) : ∀ b ∈ sendHex l s, b.fits l := by
  intro b hb
  obtain ⟨k, -, rfl⟩ := List.mem_map.mp hb
  exact hexBeat_fits l s k

/-- A packet is some beats that are not last and a last beat (30_encoding.md R85). -/
theorem sendHex_eq (l : Lanes) (s : Str) :
    ∃ ps b, sendHex l s = ps ++ [b] ∧ (∀ x ∈ ps, x.last = false) ∧ b.last = true := by
  obtain ⟨k, hk⟩ : ∃ k, beatCount l s.length = k + 1 := ⟨beatCount l s.length - 1, by unfold beatCount; omega⟩
  refine ⟨(List.range k).map (hexBeat l s), hexBeat l s k, ?_, ?_, ?_⟩
  · simp [sendHex, hk, List.range_succ]
  · intro x hx
    obtain ⟨j, hj, rfl⟩ := List.mem_map.mp hx
    have : j < k := by simpa using hj
    simp [hexBeat, hk]
    omega
  · simp [hexBeat, hk]

/-! ## The host's record of `hout` -/

@[simp] theorem packetOpen_nil : packetOpen [] = false := rfl

@[simp] theorem packetOpen_beat (log : List HoutEntry) (b : HexBeat) :
    packetOpen (log ++ [.beat b]) = !b.last := by simp [packetOpen]

@[simp] theorem packetOpen_abandoned (log : List HoutEntry) : packetOpen (log ++ [.abandoned]) = false := by
  simp [packetOpen]

/-- After the cut no packet is open. -/
@[simp] theorem packetOpen_cutRecord (log : List HoutEntry) : packetOpen (cutRecord log) = false := by
  unfold cutRecord
  split
  · simp
  · next h => simpa using h

/-- A record with no open packet is not cut. -/
theorem cutRecord_of_whole {log : List HoutEntry} (h : packetOpen log = false) : cutRecord log = log := by
  simp [cutRecord, h]

/-- With nothing offered, whole packets mean that no packet is open. -/
@[simp] theorem houtWhole_nil (log : List HoutEntry) : houtWhole [] log = !packetOpen log := rfl

/-- A produced packet after what is offered leaves whole packets to take. -/
theorem houtWhole_sendHex (q : List HexBeat) (l : Lanes) (s : Str) (log : List HoutEntry) :
    houtWhole (q ++ sendHex l s) log = true := by
  obtain ⟨ps, b, h, -, hb⟩ := sendHex_eq l s
  rw [h, ← List.append_assoc]
  simpa [houtWhole] using hb

/-- Taking the first offered beat keeps whole packets. -/
theorem houtWhole_take {b : HexBeat} {q : List HexBeat} {log : List HoutEntry} (h : houtWhole (b :: q) log = true) :
    houtWhole q (log ++ [.beat b]) = true := by
  cases q with
  | nil => simpa [houtWhole] using h
  | cons c q => rwa [houtWhole, List.getLast?_cons_cons] at h

/-- Cutting off the packet at the end of a record leaves the complete packets as they are. -/
theorem packets_cutRecord (log : List HoutEntry) : packets (cutRecord log) = packets log := by
  have h : ∀ (log : List HoutEntry) (got : Str), packetsFrom got (log ++ [.abandoned]) = packetsFrom got log := by
    intro log
    induction log with
    | nil => intro got; rfl
    | cons e log ih => intro got; cases e <;> simp [packetsFrom, ih]
  unfold cutRecord packets
  split
  · exact h log []
  · rfl

/-- The packets of a record with no open packet do not run into what comes after it. -/
theorem packetsFrom_append {log : List HoutEntry} (h : packetOpen log = false) (hne : log ≠ []) (got : Str)
    (q : List HoutEntry) : packetsFrom got (log ++ q) = packetsFrom got log ++ packetsFrom [] q := by
  induction log generalizing got with
  | nil => exact absurd rfl hne
  | cons e log ih =>
    by_cases hl : log = []
    · subst hl
      cases e with
      | abandoned => simp [packetsFrom]
      | beat b =>
        have hb : b.last = true := by simpa [packetOpen] using h
        simp [packetsFrom, hb]
    · have h' : packetOpen log = false := by
        rwa [packetOpen, List.getLast?_cons_of_ne_nil hl] at h
      cases e with
      | abandoned => simp [packetsFrom, ih h' hl]
      | beat b =>
        simp only [List.cons_append, packetsFrom]
        split <;> simp [ih h' hl]

/-- The packets of a record with no open packet, and what comes after it, are those of the two parts. -/
theorem packets_append {log : List HoutEntry} (h : packetOpen log = false) (q : List HoutEntry) :
    packets (log ++ q) = packets log ++ packets q := by
  by_cases hne : log = []
  · subst hne; rfl
  · exact packetsFrom_append h hne [] q

end Sys2Proof.Machine
end

