-- ==== Sys2Proof/Laws/Decode.lean ====
section
/-! SUPPORT. The fields of a packed command word, and the two directions between registers and their index bits. -/

namespace Sys2Proof

@[simp] theorem Reg.ofBits_bits (r : Reg) : Reg.ofBits r.bits = r := by cases r <;> rfl

@[simp] theorem Reg.bits_ofBits (b : BitVec 2) : (Reg.ofBits b).bits = b := by
  revert b; decide

variable (opc : BitVec 8) (rd ra rb : BitVec 2) (idx : BitVec 16)

@[simp] theorem fieldOpc_packFields : fieldOpc (packFields opc rd ra rb idx) = opc := by
  apply BitVec.eq_of_getLsbD_eq
  intro i hi
  simp only [fieldOpc, packFields, BitVec.getLsbD_extractLsb', BitVec.getLsbD_append]
  simp [hi]; grind

@[simp] theorem fieldRd_packFields : fieldRd (packFields opc rd ra rb idx) = rd := by
  apply BitVec.eq_of_getLsbD_eq
  intro i hi
  simp only [fieldRd, packFields, BitVec.getLsbD_extractLsb', BitVec.getLsbD_append]
  simp [hi]; grind

@[simp] theorem fieldRa_packFields : fieldRa (packFields opc rd ra rb idx) = ra := by
  apply BitVec.eq_of_getLsbD_eq
  intro i hi
  simp only [fieldRa, packFields, BitVec.getLsbD_extractLsb', BitVec.getLsbD_append]
  simp [hi]; grind

@[simp] theorem fieldRb_packFields : fieldRb (packFields opc rd ra rb idx) = rb := by
  apply BitVec.eq_of_getLsbD_eq
  intro i hi
  simp only [fieldRb, packFields, BitVec.getLsbD_extractLsb', BitVec.getLsbD_append]
  simp [hi]; grind

@[simp] theorem fieldRsv_packFields : fieldRsv (packFields opc rd ra rb idx) = 0#2 := by
  apply BitVec.eq_of_getLsbD_eq
  intro i hi
  simp only [fieldRsv, packFields, BitVec.getLsbD_extractLsb', BitVec.getLsbD_append]
  simp [hi]

@[simp] theorem fieldIdx_packFields : fieldIdx (packFields opc rd ra rb idx) = idx := by
  apply BitVec.eq_of_getLsbD_eq
  intro i hi
  simp only [fieldIdx, packFields, BitVec.getLsbD_extractLsb', BitVec.getLsbD_append]
  simp [hi]

/-- A word is the packing of its fields when its reserved field is 0. -/
theorem packFields_of_fields {w : CmdWord} (h : fieldRsv w = 0#2) :
    packFields (fieldOpc w) (fieldRd w) (fieldRa w) (fieldRb w) (fieldIdx w) = w := by
  rw [packFields, ← h]
  apply BitVec.eq_of_getLsbD_eq
  intro i hi
  simp only [fieldOpc, fieldRd, fieldRa, fieldRb, fieldRsv, fieldIdx, BitVec.getLsbD_append, BitVec.getLsbD_extractLsb']
  grind

/-- What decoding answers, in terms of its two halves. -/
theorem decode_eq_some {n : Nat} {w : CmdWord} {i : Instr} :
    decode n w = some i ↔ decodeRow w = some i ∧ i.wellFormed n = true := by
  unfold decode
  cases h : decodeRow w with
  | none => simp
  | some j =>
    by_cases hj : j.wellFormed n = true
    · simp only [hj, if_true, Option.some.injEq]
      constructor
      · rintro rfl; exact ⟨rfl, hj⟩
      · rintro ⟨rfl, -⟩; rfl
    · simp only [hj, Option.some.injEq]
      constructor
      · intro h'; cases h'
      · rintro ⟨rfl, h'⟩; exact absurd h' hj

end Sys2Proof
end

