-- ==== Sys2Proof/Laws/Values.lean ====
section
/-! SUPPORT. Word arrays and the numbers they represent, and the word steps of ADD and SUB. -/

namespace Sys2Proof.Machine

/-! ## `val` and `words` (00_scope.md R14) -/

@[simp] theorem val_nil : val [] = 0 := rfl

@[simp] theorem val_cons (w : Word) (ws : Value) : val (w :: ws) = w.toNat * 2 ^ (64 * ws.length) + val ws := rfl

/-- A value lies in 0 <= val < 2^(64N) (10_state.md R31). -/
theorem val_lt (v : Value) : val v < 2 ^ (64 * v.length) := by
  induction v with
  | nil => simp
  | cons w ws ih =>
    have hw : w.toNat < 2 ^ 64 := w.isLt
    have e : 2 ^ (64 * (w :: ws).length) = 2 ^ 64 * 2 ^ (64 * ws.length) := by
      rw [← Nat.pow_add]; congr 1; simp; omega
    rw [val_cons, e]
    calc w.toNat * 2 ^ (64 * ws.length) + val ws
        < w.toNat * 2 ^ (64 * ws.length) + 2 ^ (64 * ws.length) := by omega
      _ = (w.toNat + 1) * 2 ^ (64 * ws.length) := by ring
      _ ≤ 2 ^ 64 * 2 ^ (64 * ws.length) := Nat.mul_le_mul_right _ hw

@[simp] theorem words_length (n x : Nat) : (words n x).length = n := by simp [words]

/-- One more word in front. -/
theorem words_succ (n x : Nat) : words (n + 1) x = BitVec.ofNat 64 (x / 2 ^ (64 * n)) :: words n x := by
  simp only [words, List.range_succ_eq_map, List.map_cons, List.map_map, Nat.add_sub_cancel, Nat.sub_zero]
  congr 1
  apply List.map_congr_left
  intro j hj
  simp only [Function.comp, List.mem_range] at *
  have e : n - (j + 1) = n - 1 - j := by omega
  simp [Nat.succ_eq_add_one, e]

/-- `words` depends on `x` modulo 2^(64n) alone. -/
theorem words_mod (n x : Nat) : words n (x % 2 ^ (64 * n)) = words n x := by
  apply List.ext_getElem
  · simp
  · intro j h1 h2
    simp only [words_length] at h1
    simp only [words, List.getElem_map, List.getElem_range]
    apply BitVec.eq_of_toNat_eq
    simp only [BitVec.toNat_ofNat]
    have e : 64 * n = 64 * (n - 1 - j) + 64 + 64 * j := by omega
    rw [e, Nat.pow_add, Nat.pow_add, Nat.mul_assoc, Nat.mod_mul_right_div_self, Nat.mod_mul_right_mod]

/-- The array of a number represents it modulo 2^(64n). -/
theorem val_words (n x : Nat) : val (words n x) = x % 2 ^ (64 * n) := by
  induction n with
  | zero => simp [words, Nat.mod_one]
  | succ n ih =>
    rw [words_succ, val_cons, ih, words_length, BitVec.toNat_ofNat]
    have e : 2 ^ (64 * (n + 1)) = 2 ^ (64 * n) * 2 ^ 64 := by rw [← Nat.pow_add]; congr 1
    rw [e, Nat.mod_mul]
    ring

/-- The array of a value's number is the value: `words` and `val` are inverse (R14). -/
theorem words_val (v : Value) : words v.length (val v) = v := by
  induction v with
  | nil => rfl
  | cons w ws ih =>
    have hlt := val_lt ws
    rw [List.length_cons, words_succ, val_cons]
    congr 1
    · apply BitVec.eq_of_toNat_eq
      rw [BitVec.toNat_ofNat, Nat.add_comm, Nat.add_mul_div_right _ _ (Nat.two_pow_pos _), Nat.div_eq_of_lt hlt,
        Nat.zero_add, Nat.mod_eq_of_lt w.isLt]
    · rw [← words_mod, Nat.add_comm, Nat.add_mul_mod_self_right, Nat.mod_eq_of_lt hlt, ih]

/-- Two arrays of one length that represent the same number are equal. -/
theorem val_injective {v w : Value} (hl : v.length = w.length) (h : val v = val w) : v = w := by
  rw [← words_val v, ← words_val w, hl, h]

@[simp] theorem val_zeroV (n : Nat) : val (zeroV n) = 0 := by
  induction n with
  | zero => rfl
  | succ n ih =>
    have e : zeroV (n + 1) = 0#64 :: zeroV n := rfl
    simp [e, ih]

/-! ## Word steps (43_arithmetic.md R121, R131) -/

@[simp] theorem addWord_toNat (x y : Word) (c : Bool) : (addWord x y c).toNat = addSum x y c % 2 ^ 64 := by
  simp [addWord]

theorem addSum_lt (x y : Word) (c : Bool) : addSum x y c < 2 ^ 65 := by
  have hx := x.isLt
  have hy := y.isLt
  cases c <;> simp [addSum, bitVal] <;> omega

theorem addSum_comm (x y : Word) (c : Bool) : addSum x y c = addSum y x c := by
  simp only [addSum]; omega

theorem addWord_comm (x y : Word) (c : Bool) : addWord x y c = addWord y x c := by
  simp only [addWord, addSum_comm x y]

/-- The sum of a step is its result word plus 2^64 when the exact carry leaves it. -/
theorem addSum_split (x y : Word) (c : Bool) :
    addSum x y c = (addWord x y c).toNat + bitVal (carryOut .exactCarry (addSum x y c) (addWord x y c)) * 2 ^ 64 := by
  have h := addSum_lt x y c
  rw [addWord_toNat]
  by_cases h' : 2 ^ 64 ≤ addSum x y c
  · simp only [carryOut, h', decide_true, bitVal, if_true]; omega
  · simp only [carryOut, h', decide_false, bitVal]; simp; omega

theorem subDiff_bounds (x y : Word) (b : Bool) : -2 ^ 64 ≤ subDiff x y b ∧ subDiff x y b < 2 ^ 64 := by
  have hx := x.isLt
  have hy := y.isLt
  cases b <;> simp [subDiff, bitVal] <;> omega

/-- The result word of a step of SUB, as a number. -/
theorem subWord_toNat (x y : Word) (b : Bool) : ((subWord x y b).toNat : Int) = subDiff x y b % 2 ^ 64 := by
  have h := Int.emod_nonneg (subDiff x y b) (b := (2 ^ 64 : Int)) (by decide)
  rw [subWord, BitVec.toNat_ofInt]
  exact Int.toNat_of_nonneg h

/-- The difference of a step is its result word less 2^64 when the exact borrow leaves it. -/
theorem subDiff_split (x y : Word) (b : Bool) :
    subDiff x y b
      = (subWord x y b).toNat - bitVal (borrowOut .exactBorrow (subDiff x y b) (subWord x y b)) * 2 ^ 64 := by
  have h := subDiff_bounds x y b
  rw [subWord_toNat]
  by_cases h' : subDiff x y b < 0
  · simp only [borrowOut, h', decide_true, bitVal, if_true]; omega
  · simp only [borrowOut, h', decide_false, bitVal]; simp; omega

/-! ## Word loops (R122, R132) -/

@[simp] theorem addLoop_length (r : CarryRule) (a b : Value) (h : a.length = b.length) :
    (addLoop r a b).value.length = a.length := by
  induction a generalizing b with
  | nil => rfl
  | cons x xs ih =>
    cases b with
    | nil => simp at h
    | cons y ys => simp [addLoop, ih ys (by simpa using h)]

@[simp] theorem subLoop_length (r : BorrowRule) (a b : Value) (h : a.length = b.length) :
    (subLoop r a b).value.length = a.length := by
  induction a generalizing b with
  | nil => rfl
  | cons x xs ih =>
    cases b with
    | nil => simp at h
    | cons y ys => simp [subLoop, ih ys (by simpa using h)]

/-- Under the exact carry the loop's array and its outgoing carry are the exact sum. -/
theorem val_addLoop_exact (a b : Value) (h : a.length = b.length) :
    val (addLoop .exactCarry a b).value + bitVal (addLoop .exactCarry a b).out * 2 ^ (64 * a.length)
      = val a + val b := by
  induction a generalizing b with
  | nil =>
    obtain rfl : b = [] := by simpa using h.symm
    simp [addLoop, bitVal]
  | cons x xs ih =>
    cases b with
    | nil => simp at h
    | cons y ys =>
      have hl : xs.length = ys.length := by simpa using h
      have ih := ih ys hl
      have hs := addSum_split x y (addLoop .exactCarry xs ys).out
      have e : 2 ^ (64 * (x :: xs).length) = 2 ^ 64 * 2 ^ (64 * xs.length) := by
        rw [← Nat.pow_add]; congr 1; simp; omega
      simp only [addLoop, val_cons, addLoop_length _ _ _ hl, ← hl, e]
      generalize hP : 2 ^ (64 * xs.length) = P at *
      generalize hC : bitVal (carryOut .exactCarry (addSum x y (addLoop .exactCarry xs ys).out)
        (addWord x y (addLoop .exactCarry xs ys).out)) = C at *
      have hs' : x.toNat + y.toNat + bitVal (addLoop .exactCarry xs ys).out
          = (addWord x y (addLoop .exactCarry xs ys).out).toNat + C * 2 ^ 64 := hs
      calc _ = ((addWord x y (addLoop .exactCarry xs ys).out).toNat + C * 2 ^ 64) * P
              + val (addLoop .exactCarry xs ys).value := by ring
        _ = (x.toNat + y.toNat) * P
              + (val (addLoop .exactCarry xs ys).value + bitVal (addLoop .exactCarry xs ys).out * P) := by
            rw [← hs']; ring
        _ = _ := by rw [ih]; ring

/-- Under the exact borrow the loop's array, less its outgoing borrow, is the exact difference. -/
theorem val_subLoop_exact (a b : Value) (h : a.length = b.length) :
    (val (subLoop .exactBorrow a b).value : Int) - bitVal (subLoop .exactBorrow a b).out * 2 ^ (64 * a.length)
      = val a - val b := by
  induction a generalizing b with
  | nil =>
    obtain rfl : b = [] := by simpa using h.symm
    simp [subLoop, bitVal]
  | cons x xs ih =>
    cases b with
    | nil => simp at h
    | cons y ys =>
      have hl : xs.length = ys.length := by simpa using h
      have ih := ih ys hl
      have hs := subDiff_split x y (subLoop .exactBorrow xs ys).out
      have e : (2 : Int) ^ (64 * (x :: xs).length) = 2 ^ 64 * 2 ^ (64 * xs.length) := by
        rw [← pow_add]; congr 1; simp; omega
      simp only [subLoop, val_cons, subLoop_length _ _ _ hl, ← hl, e]
      push_cast
      generalize hP : (2 : Int) ^ (64 * xs.length) = P at *
      generalize hC : bitVal (borrowOut .exactBorrow (subDiff x y (subLoop .exactBorrow xs ys).out)
        (subWord x y (subLoop .exactBorrow xs ys).out)) = C at *
      have hs' : (x.toNat : Int) - y.toNat - bitVal (subLoop .exactBorrow xs ys).out
          = (subWord x y (subLoop .exactBorrow xs ys).out).toNat - C * 2 ^ 64 := hs
      calc _ = ((subWord x y (subLoop .exactBorrow xs ys).out).toNat - (C : Int) * 2 ^ 64) * P
              + val (subLoop .exactBorrow xs ys).value := by ring
        _ = ((x.toNat : Int) - y.toNat) * P
              + (val (subLoop .exactBorrow xs ys).value - bitVal (subLoop .exactBorrow xs ys).out * P) := by
            rw [← hs']; ring
        _ = _ := by rw [ih]; ring

end Sys2Proof.Machine
end

