-- ==== Sys2Proof/Laws/Parse.lean ====
section
/-! SUPPORT. The steps of the parse function (41_hex_decode.md R95 to R100), each with its length and the number its
output denotes. -/

namespace Sys2Proof.Machine

/-! ## Step 1 -/

theorem padOdd_even (s : Str) : (padOdd s).length % 2 = 0 := by
  unfold padOdd; split
  · simp; omega
  · omega

theorem padOdd_length (s : Str) : (padOdd s).length = 2 * ((s.length + 1) / 2) := by
  unfold padOdd; split
  · simp; omega
  · omega

@[simp] theorem all_isHex_padOdd (s : Str) : (padOdd s).all isHex = s.all isHex := by
  unfold padOdd; split
  · have : isHex 0x30#8 = true := by decide
    simp [this]
  · rfl

@[simp] theorem digitsVal_padOdd (s : Str) : digitsVal (padOdd s) = digitsVal s := by
  unfold padOdd; split
  · have : hexval 0x30#8 = 0 := by decide
    simp [digitsVal, this]
  · rfl

/-- A digit's value is below 16. -/
theorem hexval_lt {c : Code} (h : isHex c = true) : hexval c < 16 := by
  revert h; revert c; decide

/-! ## Step 2 -/

@[simp] theorem toBytes_length : ∀ s : Str, (toBytes s).length = s.length / 2
  | [] => rfl
  | [_] => by simp [toBytes]
  | a :: b :: rest => by simp [toBytes, toBytes_length rest]; omega

/-- The bytes denote the number the digits denote. -/
theorem bytesVal_toBytes : ∀ s : Str, s.length % 2 = 0 → s.all isHex = true → bytesVal (toBytes s) = digitsVal s
  | [], _, _ => rfl
  | [_], h, _ => by simp at h
  | a :: b :: rest, h, hx => by
    simp only [List.all_cons, Bool.and_eq_true] at hx
    have hl : rest.length % 2 = 0 := by simp at h; omega
    have ha := hexval_lt hx.1
    have hb := hexval_lt hx.2.1
    have ih := bytesVal_toBytes rest hl hx.2.2
    have e1 : 8 * (rest.length / 2) = 4 * rest.length := by omega
    have e2 : (16 : Nat) ^ rest.length = 2 ^ (4 * rest.length) := by rw [Nat.pow_mul]
    simp only [toBytes, bytesVal, digitsVal, ih, toBytes_length, e1, List.length_cons, BitVec.toNat_ofNat,
      Nat.pow_succ, e2]
    rw [Nat.mod_eq_of_lt (by omega)]
    ring

/-! ## Step 3 -/

theorem padBytes_length (bs : List Code) : (padBytes bs).length = 8 * ((bs.length + 7) / 8) := by
  have : padCount bs.length + bs.length = 8 * ((bs.length + 7) / 8) := by
    simp only [padCount]
    split <;> omega
  simpa [padBytes] using this

theorem bytesVal_replicate_zero (k : Nat) (bs : List Code) : bytesVal (List.replicate k 0#8 ++ bs) = bytesVal bs := by
  induction k with
  | zero => rfl
  | succ k ih => simp [List.replicate_succ, bytesVal, ih]

@[simp] theorem bytesVal_padBytes (bs : List Code) : bytesVal (padBytes bs) = bytesVal bs :=
  bytesVal_replicate_zero _ bs

/-- The padded length of step 4 in terms of the string: 8 * ceil(len / 16) (R105). -/
theorem padded_length (s : Str) : (padBytes (toBytes (padOdd s))).length = 8 * ((s.length + 15) / 16) := by
  rw [padBytes_length, toBytes_length, padOdd_length]
  omega

/-! ## Step 5 -/

theorem bytesVal_lt (bs : List Code) : bytesVal bs < 2 ^ (8 * bs.length) := by
  induction bs with
  | nil => simp [bytesVal]
  | cons b bs ih =>
    have hb : b.toNat < 2 ^ 8 := b.isLt
    have e : 2 ^ (8 * (b :: bs).length) = 2 ^ 8 * 2 ^ (8 * bs.length) := by
      rw [← Nat.pow_add]; congr 1; simp; omega
    rw [bytesVal, e]
    calc b.toNat * 2 ^ (8 * bs.length) + bytesVal bs
        < b.toNat * 2 ^ (8 * bs.length) + 2 ^ (8 * bs.length) := by omega
      _ = (b.toNat + 1) * 2 ^ (8 * bs.length) := by ring
      _ ≤ 2 ^ 8 * 2 ^ (8 * bs.length) := Nat.mul_le_mul_right _ hb

theorem chunkWord_toNat {c : List Code} (h : c.length = 8) : (chunkWord c).toNat = bytesVal c := by
  have hlt := bytesVal_lt c
  rw [h] at hlt
  rw [chunkWord, BitVec.toNat_ofNat, Nat.mod_eq_of_lt (by simpa using hlt)]

theorem bytesVal_append (xs ys : List Code) :
    bytesVal (xs ++ ys) = bytesVal xs * 2 ^ (8 * ys.length) + bytesVal ys := by
  induction xs with
  | nil => simp [bytesVal]
  | cons x xs ih =>
    have e : 2 ^ (8 * (xs ++ ys).length) = 2 ^ (8 * xs.length) * 2 ^ (8 * ys.length) := by
      rw [← Nat.pow_add]; congr 1; simp; omega
    simp only [List.cons_append, bytesVal, ih, e]
    ring

/-- The chunks of 8k bytes are k words that denote the number the bytes denote. -/
theorem chunks_spec : ∀ (k : Nat) (bs : List Code), bs.length = 8 * k →
    ((chunks bs).map chunkWord).length = k ∧ val ((chunks bs).map chunkWord) = bytesVal bs := by
  intro k
  induction k with
  | zero =>
    intro bs h
    obtain rfl : bs = [] := by simpa using h
    exact ⟨rfl, rfl⟩
  | succ k ih =>
    intro bs h
    match bs, h with
    | a :: b :: c :: d :: e :: f :: g :: i :: rest, h =>
      have hr : rest.length = 8 * k := by simp at h; omega
      obtain ⟨h1, h2⟩ := ih rest hr
      constructor
      · simpa [chunks] using h1
      · have hv := bytesVal_append [a, b, c, d, e, f, g, i] rest
        have hc := chunkWord_toNat (c := [a, b, c, d, e, f, g, i]) rfl
        simp only [chunks, List.map_cons, val_cons, hc, h1, h2]
        rw [show a :: b :: c :: d :: e :: f :: g :: i :: rest = [a, b, c, d, e, f, g, i] ++ rest from rfl, hv, hr]
        congr 3
        omega
    | [], h => simp at h
    | [_], h => simp at h; omega
    | [_, _], h => simp at h; omega
    | [_, _, _], h => simp at h; omega
    | [_, _, _, _], h => simp at h; omega
    | [_, _, _, _, _], h => simp at h; omega
    | [_, _, _, _, _, _], h => simp at h; omega
    | [_, _, _, _, _, _, _], h => simp at h; omega

/-! ## Chunk placement (R100) -/

/-- Placing chunks from slot `m` on, counted from the front: what the loop of FROM_END has written after the chunks
with indices from `m` on. -/
theorem place_up {n k : Nat} (hk : k ≤ n) : ∀ (cs : List Word) (m : Nat) (v : Value), m + cs.length = k → v.length = n →
    (cs.zipIdx m).foldl (fun v ci => if ci.2 < n then v.set (chunkSlot .fromEnd n k ci.2) ci.1 else v) v
      = v.take (n - k + m) ++ cs := by
  intro cs
  induction cs with
  | nil =>
    intro m v hm hv
    simp only [List.length_nil, Nat.add_zero] at hm
    simp only [List.zipIdx_nil, List.foldl_nil, List.append_nil]
    rw [List.take_of_length_le (by omega)]
  | cons c cs ih =>
    intro m v hm hv
    simp only [List.length_cons] at hm
    have hmn : m < n := by omega
    simp only [List.zipIdx_cons, List.foldl_cons, hmn, if_true]
    rw [ih (m + 1) _ (by omega) (by simpa using hv)]
    have hlt : n - k + m < v.length := by omega
    simp only [chunkSlot, ← Nat.add_assoc]
    rw [List.take_add_one, List.take_set_of_le (Nat.le_refl _)]
    simp [hlt]

/-- Placing chunks downwards from the last word: what the loop of FROM_START has written. -/
theorem place_down {n k : Nat} (hk : k ≤ n) : ∀ (cs : List Word) (m : Nat) (v : Value), m + cs.length = k → v.length = n →
    (cs.zipIdx m).foldl (fun v ci => if ci.2 < n then v.set (chunkSlot .fromStart n k ci.2) ci.1 else v) v
      = v.take (n - k) ++ cs.reverse ++ v.drop (n - m) := by
  intro cs
  induction cs with
  | nil =>
    intro m v hm hv
    simp only [List.length_nil, Nat.add_zero] at hm
    subst hm
    simp
  | cons c cs ih =>
    intro m v hm hv
    simp only [List.length_cons] at hm
    have hmn : m < n := by omega
    simp only [List.zipIdx_cons, List.foldl_cons, hmn, if_true]
    rw [ih (m + 1) _ (by omega) (by simpa using hv)]
    have hlt : n - 1 - m < v.length := by omega
    have e1 : n - (m + 1) = n - 1 - m := by omega
    have e2 : n - m = n - 1 - m + 1 := by omega
    simp only [chunkSlot, e1, e2]
    have hd : (v.set (n - 1 - m) c).drop (n - 1 - m) = c :: v.drop (n - 1 - m + 1) := by
      rw [List.drop_eq_getElem_cons (by simpa using hlt)]
      simp [List.drop_set_of_lt]
    rw [List.take_set_of_le (by omega), hd]
    simp

/-- Under FROM_END the chunks are the low words of the value, in order (R100, R106(a)). -/
theorem placeChunks_fromEnd {n : Nat} {cs : List Word} (h : cs.length ≤ n) :
    placeChunks .fromEnd n cs = List.replicate (n - cs.length) 0#64 ++ cs := by
  have := place_up h cs 0 (zeroV n) (by omega) (by simp)
  rw [placeChunks]
  simpa [zeroV, List.take_replicate] using this

/-- Under FROM_START they are the low words in reverse order (R100, R106(b)). -/
theorem placeChunks_fromStart {n : Nat} {cs : List Word} (h : cs.length ≤ n) :
    placeChunks .fromStart n cs = List.replicate (n - cs.length) 0#64 ++ cs.reverse := by
  have := place_down h cs 0 (zeroV n) (by omega) (by simp)
  rw [placeChunks]
  simpa [zeroV, List.take_replicate] using this

/-- A parse result has N words, under either rule. -/
theorem placeChunks_length {n : Nat} {cs : List Word} (r : ChunkRule) (h : cs.length ≤ n) :
    (placeChunks r n cs).length = n := by
  cases r
  · rw [placeChunks_fromStart h]; simp; omega
  · rw [placeChunks_fromEnd h]; simp; omega

end Sys2Proof.Machine
end

