-- ==== Sys2Proof/Laws/Exec.lean ====
section
/-! SUPPORT. What each meaning can answer, said once: later proofs cite these and unfold no meaning. -/

namespace Sys2Proof.Machine

variable {s t : State}

/-! ## Commands that never wait -/

theorem exec_zero (rd : Reg) (s : State) :
    exec (.zero rd) s = .next ((s.setReg rd (zeroV s.cfg.n)).sendRsp .ok 0#64) := rfl

theorem exec_add (rd ra rb : Reg) (s : State) :
    exec (.add rd ra rb) s
      = .next ((s.setReg rd (addValue s.cfg.carryRule (s.reg ra) (s.reg rb))).sendRsp .ok 0#64) := rfl

theorem exec_sub (rd ra rb : Reg) (s : State) :
    exec (.sub rd ra rb) s
      = .next ((s.setReg rd (subValue s.cfg.borrowRule (s.reg ra) (s.reg rb))).sendRsp .ok 0#64) := rfl

theorem exec_rdw_legal {ra : Reg} {idx : BitVec 16} (h : idx.toNat < s.cfg.n) :
    exec (.rdw ra idx) s = .next (s.sendRsp .ok (s.word ra idx.toNat)) := by
  simp [exec, execRdw, indexLegal, wordIndex, h]

theorem exec_rdw_illegal {ra : Reg} {idx : BitVec 16} (h : s.cfg.n ≤ idx.toNat) :
    exec (.rdw ra idx) s = .next (s.raise .illegal) := by
  have : ¬ idx.toNat < s.cfg.n := by omega
  simp [exec, execRdw, indexLegal, wordIndex, this]

/-! ## WRW -/

theorem exec_wrw_waits {rd : Reg} {idx : BitVec 16} (h : idx.toNat < s.cfg.n) (hq : s.dinQ = []) :
    exec (.wrw rd idx) s = .next s := by
  simp [exec, execWrw, indexLegal, wordIndex, h, hq]

theorem exec_wrw_takes {rd : Reg} {idx : BitVec 16} {x : Word} {q : List Word} (h : idx.toNat < s.cfg.n)
    (hq : s.dinQ = x :: q) :
    exec (.wrw rd idx) s = .next (((s.setDinQ q).setWord rd idx.toNat x).sendRsp .ok 0#64) := by
  simp [exec, execWrw, indexLegal, wordIndex, h, hq]

theorem exec_wrw_illegal {rd : Reg} {idx : BitVec 16} (h : s.cfg.n ≤ idx.toNat) :
    exec (.wrw rd idx) s = .next (s.raise .illegal) := by
  have : ¬ idx.toNat < s.cfg.n := by omega
  simp [exec, execWrw, indexLegal, wordIndex, this]

/-! ## PARSE -/

theorem exec_parse_waits {rd : Reg} (hq : s.hinQ = []) : exec (.parse rd) s = .next s := by
  simp [exec, execParse, hq]

/-- PARSE with beats offered: it ends on a whole packet and keeps what it took of an unfinished one. -/
theorem exec_parse_cases {rd : Reg} (hq : s.hinQ ≠ []) :
    (∃ text rest, recvHex s.temps.received s.hinQ = ⟨text, true, rest⟩
        ∧ exec (.parse rd) s = .next (finishParse rd text (s.setHinQ rest)))
    ∨ (∃ text rest, recvHex s.temps.received s.hinQ = ⟨text, false, rest⟩
        ∧ exec (.parse rd) s = .next { s with hinQ := rest, phase := .exec (.parse rd) (.text text) }) := by
  obtain ⟨b, q, hb⟩ := List.exists_cons_of_ne_nil hq
  cases hr : recvHex s.temps.received s.hinQ with
  | mk text complete rest =>
    cases complete
    · right; exact ⟨text, rest, rfl, by simp only [exec, execParse]; rw [hb] at hr; simp [hb, hr]⟩
    · left; exact ⟨text, rest, rfl, by simp only [exec, execParse]; rw [hb] at hr; simp [hb, hr]⟩

/-- How PARSE ends, by what the parse function returns. -/
theorem finishParse_ok {rd : Reg} {text : Str} {v : Value} (h : hexparse s.cfg.n s.cfg.chunkRule text = .ok v) :
    finishParse rd text s = (s.setReg rd v).sendRsp .ok 0#64 := by
  simp [finishParse, h]

theorem finishParse_decode {rd : Reg} {text : Str} (h : hexparse s.cfg.n s.cfg.chunkRule text = .decode) :
    finishParse rd text s = s.raise .decode := by
  simp [finishParse, h]

theorem finishParse_overflow {rd : Reg} {text : Str} (h : hexparse s.cfg.n s.cfg.chunkRule text = .overflow) :
    finishParse rd text s = s.raise .overflow := by
  simp [finishParse, h]

/-- The parse function returns an array of N words or an error (41_hex_decode.md R95, R107). -/
theorem hexparse_ok_length {n : Nat} {r : ChunkRule} {text : Str} {v : Value} (h : hexparse n r text = .ok v) :
    v.length = n := by
  simp only [hexparse] at h
  split at h
  · split at h
    · cases h
    · next hl =>
      cases h
      apply placeChunks_length
      rw [padded_length] at hl
      rw [(chunks_spec _ _ (padded_length text)).1]
      omega
  · cases h

/-! ## RENDER -/

theorem exec_render_sends {ra : Reg} (h : s.temps ≠ .packetSent) :
    exec (.render ra) s = .next { s with
      houtQ := s.houtQ ++ sendHex s.cfg.lanes (hexrender s.cfg.renderRule (s.reg ra))
      phase := .exec (.render ra) .packetSent } := by
  simp only [exec, execRender]
  cases ht : s.temps with
  | none => rfl
  | text _ => rfl
  | packetSent => exact absurd ht h

theorem exec_render_waits {ra : Reg} (h : s.temps = .packetSent) (hq : s.houtQ ≠ []) :
    exec (.render ra) s = .next s := by
  obtain ⟨b, q, hb⟩ := List.exists_cons_of_ne_nil hq
  simp [exec, execRender, h, hb]

theorem exec_render_ends {ra : Reg} (h : s.temps = .packetSent) (hq : s.houtQ = []) :
    exec (.render ra) s = .next (s.sendRsp .ok 0#64) := by
  simp [exec, execRender, h, hq]

/-! ## Every command -/

/-- No command stops with a fault or a refusal. -/
theorem exec_next (i : Instr) (s : State) : ∃ t, exec i s = .next t := by
  cases i with
  | zero rd => exact ⟨_, exec_zero rd s⟩
  | add rd ra rb => exact ⟨_, exec_add rd ra rb s⟩
  | sub rd ra rb => exact ⟨_, exec_sub rd ra rb s⟩
  | rdw ra idx =>
    rcases Nat.lt_or_ge idx.toNat s.cfg.n with h | h
    · exact ⟨_, exec_rdw_legal h⟩
    · exact ⟨_, exec_rdw_illegal h⟩
  | wrw rd idx =>
    rcases Nat.lt_or_ge idx.toNat s.cfg.n with h | h
    · cases hq : s.dinQ with
      | nil => exact ⟨_, exec_wrw_waits h hq⟩
      | cons x q => exact ⟨_, exec_wrw_takes h hq⟩
    · exact ⟨_, exec_wrw_illegal h⟩
  | parse rd =>
    by_cases hq : s.hinQ = []
    · exact ⟨_, exec_parse_waits hq⟩
    · rcases exec_parse_cases (rd := rd) hq with ⟨_, _, -, h⟩ | ⟨_, _, -, h⟩ <;> exact ⟨_, h⟩
  | render ra =>
    by_cases ht : s.temps = .packetSent
    · by_cases hq : s.houtQ = []
      · exact ⟨_, exec_render_ends ht hq⟩
      · exact ⟨_, exec_render_waits ht hq⟩
    · exact ⟨_, exec_render_sends ht⟩

/-! ## Registers keep their size -/

theorem regsSized_setReg {r : Reg} {v : Value} (h : regsSized s) (hv : v.length = s.cfg.n) :
    regsSized (s.setReg r v) := by
  obtain ⟨h0, h1, h2, h3⟩ := h
  cases r <;> exact ⟨by first | exact hv | exact h0, by first | exact hv | exact h1, by first | exact hv | exact h2,
    by first | exact hv | exact h3⟩

theorem regsSized_reg (h : regsSized s) (r : Reg) : (s.reg r).length = s.cfg.n := by
  obtain ⟨h0, h1, h2, h3⟩ := h
  cases r <;> assumption

theorem regsSized_setWord {r : Reg} (j : Nat) (x : Word) (h : regsSized s) : regsSized (s.setWord r j x) :=
  regsSized_setReg h (by simp [regsSized_reg h r])

end Sys2Proof.Machine
end

