-- ==== Sys2Proof/Laws/PerInstr.lean ====
section
/-! SUPPORT. The family MatchesRow: the encoding of every command selects its row of the opcode table by mask and
match (30_encoding.md R75), one lemma per constructor. -/

namespace Sys2Proof.Laws.MatchesRow

/-- The encoding of `i` selects its row. -/
def Statement (i : Instr) : Prop := selectsRow (encode i) i

theorem zero (rd : Reg) : Statement (.zero rd) := by cases rd <;> unfold Statement <;> decide

theorem parse (rd : Reg) : Statement (.parse rd) := by cases rd <;> unfold Statement <;> decide

theorem render (ra : Reg) : Statement (.render ra) := by cases ra <;> unfold Statement <;> decide

theorem add (rd ra rb : Reg) : Statement (.add rd ra rb) := by cases rd <;> cases ra <;> cases rb <;> unfold Statement <;> decide

theorem sub (rd ra rb : Reg) : Statement (.sub rd ra rb) := by cases rd <;> cases ra <;> cases rb <;> unfold Statement <;> decide

/-- A mask that is 0 on the low half makes the IDX field of a packed word not matter. -/
theorem packFields_and_high (opc : BitVec 8) (rd ra rb : BitVec 2) (idx : BitVec 16) (m : BitVec 16) :
    packFields opc rd ra rb idx &&& (m ++ 0#16 : BitVec 32)
      = packFields opc rd ra rb 0 &&& (m ++ 0#16 : BitVec 32) := by
  apply BitVec.eq_of_getLsbD_eq
  intro i hi
  simp only [packFields, BitVec.getLsbD_and]
  rw [BitVec.getLsbD_append (x := m), BitVec.getLsbD_append (y := idx), BitVec.getLsbD_append (y := 0)]
  split <;> simp

theorem rdw (ra : Reg) (idx : BitVec 16) : Statement (.rdw ra idx) := by
  have h := packFields_and_high 0x06#8 0 ra.bits 0 idx 0xFFCF#16
  exact h.trans (by cases ra <;> rfl)

theorem wrw (rd : Reg) (idx : BitVec 16) : Statement (.wrw rd idx) := by
  have h := packFields_and_high 0x07#8 rd.bits 0 0 idx 0xFF3F#16
  exact h.trans (by cases rd <;> rfl)

end Sys2Proof.Laws.MatchesRow
end

