-- ==== Sys2Proof/Laws/Render.lean ====
section
/-! SUPPORT. The digits of a word, the number a string denotes, and the strip of leading zeros (00_scope.md R15,
42_hex_encode.md R111). -/

namespace Sys2Proof.Machine

/-! ## Digits -/

@[simp] theorem isHex_hexchar (d : BitVec 4) : isHex (hexchar d) = true := by revert d; decide

@[simp] theorem hexval_hexchar (d : BitVec 4) : hexval (hexchar d) = d.toNat := by revert d; decide

/-- A rendered digit is '0' only for 0. -/
theorem hexchar_eq_zero (d : BitVec 4) : hexchar d = 0x30#8 ↔ d = 0#4 := by revert d; decide

@[simp] theorem lower_hexchar (d : BitVec 4) : lower (hexchar d) = hexchar d := by revert d; decide

@[simp] theorem hex16_length (x : Word) : (hex16 x).length = 16 := by simp [hex16]

theorem hex16_all (x : Word) : (hex16 x).all isHex = true := by simp [hex16]

/-! ## The number a string denotes -/

theorem digitsVal_append (s t : Str) : digitsVal (s ++ t) = digitsVal s * 16 ^ t.length + digitsVal t := by
  induction s with
  | nil => simp [digitsVal]
  | cons c s ih =>
    have e : 16 ^ (s ++ t).length = 16 ^ s.length * 16 ^ t.length := by
      rw [← Nat.pow_add, List.length_append]
    simp only [List.cons_append, digitsVal, ih, e]
    ring

/-- The first m digits of a word denote its high 4m bits. -/
theorem digitsVal_high (x : Word) : ∀ m : Nat, m ≤ 16 →
    digitsVal ((List.range m).map fun k => hexchar (x.extractLsb' (60 - 4 * k) 4)) = x.toNat / 2 ^ (64 - 4 * m) := by
  intro m
  induction m with
  | zero =>
    intro _
    have := x.isLt
    simp [digitsVal, Nat.div_eq_of_lt this]
  | succ m ih =>
    intro hm
    have ih := ih (by omega)
    have hp : (2 : Nat) ^ (64 - 4 * m) = 2 ^ (60 - 4 * m) * 16 := by
      rw [show 64 - 4 * m = 60 - 4 * m + 4 by omega, Nat.pow_add]
    have e : 64 - 4 * (m + 1) = 60 - 4 * m := by omega
    rw [List.range_succ, List.map_append, digitsVal_append, ih, hp, ← Nat.div_div_eq_div_mul, e]
    simp only [List.map_cons, List.map_nil, digitsVal, hexval_hexchar, BitVec.extractLsb'_toNat, Nat.shiftRight_eq_div_pow,
      List.length_cons, List.length_nil]
    omega

/-- The 16 digits of a word denote the word. -/
@[simp] theorem digitsVal_hex16 (x : Word) : digitsVal (hex16 x) = x.toNat := by
  have := digitsVal_high x 16 (by decide)
  simpa [hex16] using this

/-! ## The strip of leading zeros -/

@[simp] theorem digitsVal_strip0 (s : Str) : digitsVal (strip0 s) = digitsVal s := by
  induction s with
  | nil => rfl
  | cons c s ih =>
    unfold strip0
    split
    · next h =>
      have : hexval 0x30#8 = 0 := by decide
      simp [h, digitsVal, this, ih]
    · rfl

theorem strip0_length_le (s : Str) : (strip0 s).length ≤ s.length := by
  induction s with
  | nil => simp [strip0]
  | cons c s ih => unfold strip0; split <;> simp; omega

/-- A stripped string does not begin with '0'. -/
theorem strip0_head (s : Str) (c : Code) (cs : Str) (h : strip0 s = c :: cs) : c ≠ 0x30#8 := by
  induction s with
  | nil => simp [strip0] at h
  | cons d s ih =>
    unfold strip0 at h
    split at h
    · exact ih h
    · next hd => simp only [List.cons.injEq] at h; exact h.1 ▸ hd

theorem mem_strip0 {s : Str} {c : Code} (h : c ∈ strip0 s) : c ∈ s := by
  induction s with
  | nil => simp [strip0] at h
  | cons d s ih =>
    unfold strip0 at h
    split at h
    · exact List.mem_cons_of_mem _ (ih h)
    · exact h

/-! ## The render loop -/

/-- Every rendered character is a lowercase hex digit. -/
theorem renderLoop_digit {r : RenderRule} {seen : Bool} {v : Value} {c : Code} (h : c ∈ renderLoop r seen v) :
    ∃ d : BitVec 4, c = hexchar d := by
  induction v generalizing seen with
  | nil => simp [renderLoop] at h
  | cons w ws ih =>
    unfold renderLoop at h
    split at h
    · rcases List.mem_append.mp h with h | h
      · simp only [hex16, List.mem_map] at h
        obtain ⟨k, -, rfl⟩ := h
        exact ⟨_, rfl⟩
      · exact ih h
    · exact ih h

theorem renderLoop_length_le (r : RenderRule) (seen : Bool) (v : Value) :
    (renderLoop r seen v).length ≤ 16 * v.length := by
  induction v generalizing seen with
  | nil => simp [renderLoop]
  | cons w ws ih =>
    unfold renderLoop
    have h1 := ih true
    have h2 := ih seen
    split
    · simp; omega
    · simp; omega

/-- Once a word has been emitted, SKIP_LEADING_ZERO emits every word. -/
theorem renderLoop_seen (v : Value) :
    (renderLoop .skipLeadingZero true v).length = 16 * v.length
      ∧ digitsVal (renderLoop .skipLeadingZero true v) = val v := by
  induction v with
  | nil => exact ⟨rfl, rfl⟩
  | cons w ws ih =>
    obtain ⟨h1, h2⟩ := ih
    have e : emitsWord .skipLeadingZero true w = true := by simp [emitsWord]
    have p : (16 : Nat) ^ (16 * ws.length) = 2 ^ (64 * ws.length) := by
      rw [show (16 : Nat) = 2 ^ 4 from rfl, ← Nat.pow_mul]; congr 1; omega
    simp only [renderLoop, e, if_true]
    constructor
    · simp [h1]; omega
    · rw [digitsVal_append, h1, h2, digitsVal_hex16, val_cons, p]

end Sys2Proof.Machine
end

