-- ==== Sys2Proof/Laws/Step.lean ====
section
/-! SUPPORT. What one step does, by the move that is next and the phase of the block. -/

namespace Sys2Proof.Machine

variable {s b : State}

/-- When the block moves next, a step is its move. -/
theorem step_blockTurn (h : s.blockTurn = some b) : step s = blockMove b := by
  unfold State.blockTurn at h
  unfold step
  split at h <;> simp_all

theorem step_host {m : HostMove} {rest : List Turn} (h : s.turns = .host m :: rest) :
    step s = hostMove m (s.withTurns rest) := by simp [step, h]

theorem step_accept {rest : List Turn} (h : s.turns = .accept :: rest) :
    step s = acceptMove (s.withTurns rest) := by simp [step, h]

theorem step_idle {rest : List Turn} (h : s.turns = .idle :: rest) :
    step s = .next (s.withTurns rest) := by simp [step, h]

/-- The block's turn changes nothing but the schedule. -/
theorem blockTurn_eq (h : s.blockTurn = some b) : ∃ ts, b = s.withTurns ts := by
  unfold State.blockTurn at h
  split at h
  · exact ⟨s.turns, (Option.some.inj h).symm⟩
  · exact ⟨_, (Option.some.inj h).symm⟩
  all_goals cases h

theorem blockMove_reset (h : s.rst = true) : blockMove s = .next s.resetEdge := by simp [blockMove, h]

/-- After a reset and with rst = 0 the block moves by its phase. -/
theorem blockMove_run (h1 : s.rst = false) (h2 : s.boot ≠ .unreset) : blockMove s = runPhase s := by
  unfold blockMove
  rw [h1]
  cases hb : s.boot <;> simp_all

theorem acceptMove_run (h1 : s.rst = false) (h2 : s.boot ≠ .unreset) : acceptMove s = acceptPhase s := by
  unfold acceptMove
  rw [h1]
  cases hb : s.boot <;> simp_all

/-- The block's step after a reset and with rst = 0, by its phase. -/
theorem step_run (hb : s.blockTurn = some b) (h1 : s.rst = false) (h2 : s.boot ≠ .unreset) :
    step s = runPhase b ∧ ∃ ts, b = s.withTurns ts := by
  obtain ⟨ts, rfl⟩ := blockTurn_eq hb
  rw [step_blockTurn hb]
  exact ⟨blockMove_run h1 h2, ts, rfl⟩

theorem runPhase_idle (h : s.phase = .idle) : runPhase s = takeCommand s := by simp [runPhase, h]

theorem runPhase_exec {i : Instr} {t : Temps} (h : s.phase = .exec i t) : runPhase s = exec i s.tick := by
  simp [runPhase, h]

theorem runPhase_resp {st : Status} {d : Word} (h : s.phase = .resp st d) : runPhase s = .next s.tick := by
  simp [runPhase, h]

theorem takeCommand_nil (h : s.cmdQ = []) : takeCommand s = .next s.tick := by simp [takeCommand, h]

theorem takeCommand_legal {w : CmdWord} {rest : List CmdWord} {i : Instr} (h : s.cmdQ = w :: rest)
    (hd : decode s.cfg.n w = some i) : takeCommand s = exec i (s.beginCommand i rest) := by
  simp [takeCommand, h, hd]

theorem takeCommand_illegal {w : CmdWord} {rest : List CmdWord} (h : s.cmdQ = w :: rest)
    (hd : decode s.cfg.n w = none) :
    takeCommand s = .next (State.raise { s with cmdQ := rest, boot := .ready } .illegal) := by
  simp [takeCommand, h, hd]

/-! ## Host moves that change the channels -/

theorem hostMove_offerCmd_ready {w : CmdWord} (h : s.boot = .ready) :
    hostMove (.offerCmd w) s = .next { s with cmdQ := s.cmdQ ++ [w] } := by
  simp [hostMove, State.offerCmd, h]

theorem hostMove_offerHin_legal {x : HexBeat} (h : x.count ≤ s.cfg.lanes.count) :
    hostMove (.offerHin x) s = .next { s with hinQ := s.hinQ ++ [x.onBus s.cfg.lanes] } := by
  simp [hostMove, State.offerHin, h]

end Sys2Proof.Machine
end

