-- ==== Sys2Proof/Tests/Slice0.lean ====
section
/-! SUPPORT. Tests on fixed values, with the expected results of spec/95_test_vectors.md (the ids W, T and P are its
own) and of the worked encodings of 30_encoding.md, and a witness for the hypotheses of every statement. -/

namespace Sys2Proof.Tests

open Sys2Proof Sys2Proof.Machine

/-! ## Helpers -/

/-- The characters of a string (R15). -/
def chars (s : String) : Str := s.toList.map fun c => BitVec.ofNat 8 c.toNat

/-- A block that has been reset and may be offered a command, with the four registers as given. -/
def blockWith (c : Config) (a b d e : Value) : State :=
  { State.resetWith c with v0 := a, v1 := b, v2 := d, v3 := e, boot := .ready }

/-- The same block with a command just taken. -/
def taken (s : State) (i : Instr) : State := { s with phase := .exec i .none }

/-- Two words, default rules, one character a beat. -/
def lit2 : Config := Config.literal 2 .one
/-- Two words, contract rules, four characters a beat. -/
def con2 : Config := Config.contract 2 .four
/-- One word, default rules. -/
def lit1 : Config := Config.literal 1 .four

/-- MAX64. -/
def m : Word := max64
/-- 2^63. -/
def h : Word := 0x8000000000000000#64

/-- A block on two words with V1 = [5, 6]. -/
def s2 : State := blockWith lit2 (zeroV 2) [5#64, 6#64] (zeroV 2) (zeroV 2)

/-- The next state of an outcome, if it is one. -/
def nextOf : Host.Outcome State Fault Refusal → Option State
  | .next t => some t
  | .fault _ => none
  | .refused _ => none

/-- What a command leaves in a register, with its status and data. -/
def resultIn (r : Reg) (o : Host.Outcome State Fault Refusal) : Option (Value × Phase) :=
  (nextOf o).map fun t => (t.reg r, t.phase)

/-! ## WellFormed: each check refuses an ill-formed command -/

theorem test_rdw_ill_formed : Instr.wellFormed 2 (.rdw .v1 2#16) = false := by decide
theorem test_wrw_ill_formed : Instr.wellFormed 2 (.wrw .v3 2#16) = false := by decide
theorem test_last_index_well_formed :
    Instr.wellFormed 2 (.rdw .v1 1#16) = true ∧ Instr.wellFormed 65536 (.wrw .v3 0xFFFF#16) = true := by
  simp [Instr.wellFormed]

/-! ## Decoding: words written out from 30_encoding.md R70 (OPC RD RA RB RSV IDX) -/

theorem test_decode_zero :
    decode 24 0b00000001_11_00_00_00_0000000000000000#32 = some (.zero .v3) := by decide
theorem test_decode_parse :
    decode 24 0b00000010_01_00_00_00_0000000000000000#32 = some (.parse .v1) := by decide
theorem test_decode_render :
    decode 24 0b00000011_00_10_00_00_0000000000000000#32 = some (.render .v2) := by decide
theorem test_decode_add :
    decode 24 0b00000100_10_00_01_00_0000000000000000#32 = some (.add .v2 .v0 .v1) := by decide
theorem test_decode_sub :
    decode 24 0b00000101_11_01_10_00_0000000000000000#32 = some (.sub .v3 .v1 .v2) := by decide
theorem test_decode_rdw :
    decode 24 0b00000110_00_01_00_00_0000000000000100#32 = some (.rdw .v1 4#16) := by decide
theorem test_decode_wrw :
    decode 24 0b00000111_11_00_00_00_0000000000010111#32 = some (.wrw .v3 0x17#16) := by decide

/-- T9 to T13. -/
theorem test_decode_illegal :
    [0x00000000#32, 0x08000000#32, 0xFF000000#32, 0x01010000#32, 0x01100000#32].map (decode 2)
      = List.replicate 5 none := by decide

/-- T14, T15, T17, and the index limits of T4 and T7. -/
theorem test_decode_illegal_operands :
    [0x04840001#32, 0x02000005#32, 0x06D00000#32, 0x06100002#32, 0x07C00002#32].map (decode 2)
      = List.replicate 5 none := by decide

theorem test_decode_table_word :
    decodeTableWord 32 0x0600000B = some (.rdw .v0 11#16) ∧ decodeTableWord 32 0x0600000C = none := by decide

/-- R80. -/
theorem test_assemble :
    assemble "wrw v3, 0x17" = some (.wrw .v3 0x17#16) ∧ assemble "rdw v1, 65536" = none
      ∧ assemble "zero v4" = none ∧ (Instr.sub .v3 .v1 .v2).asm = "sub v3, v1, v2" := by decide

/-! ## One step of each command -/

/-- T1. -/
theorem test_zero : resultIn .v1 (exec (.zero .v1) s2) = some ([0#64, 0#64], .resp .ok 0#64) := by decide

/-- T2, T3. -/
theorem test_rdw :
    resultIn .v1 (exec (.rdw .v1 0#16) s2) = some ([5#64, 6#64], .resp .ok 5#64)
      ∧ resultIn .v1 (exec (.rdw .v1 1#16) s2) = some ([5#64, 6#64], .resp .ok 6#64) := by decide

/-- T4, as a step from the offered word: decode refuses it. -/
theorem test_rdw_illegal :
    (nextOf (step { s2 with cmdQ := [0x06100002#32] })).map (fun t => (t.v1, t.phase))
      = some ([5#64, 6#64], .resp .illegal 0#64) := by decide

/-- T6. -/
theorem test_wrw :
    resultIn .v3 (exec (.wrw .v3 0#16) { s2 with v3 := [0#64, m], dinQ := [1#64, 9#64] })
      = some ([1#64, m], .resp .ok 0#64) := by decide

/-- T7: the offered data word stays queued. -/
theorem test_wrw_illegal :
    (nextOf (step { s2 with cmdQ := [0x07C00002#32], dinQ := [9#64] })).map (fun t => (t.v3, t.dinQ, t.phase))
      = some ([0#64, 0#64], [9#64], .resp .illegal 0#64) := by decide

/-- T27: a packet of one-character beats, under FROM_START. -/
theorem test_parse :
    resultIn .v0 (exec (.parse .v0) { s2 with hinQ := sendHex .one (chars "10000000000000000") })
      = some ([0#64, 1#64], .resp .ok 0#64) := by decide

/-- T31 with four lanes, the beat written out: '0' 'x' '1' '2'. V0 is unchanged and the packet consumed. -/
theorem test_parse_decode :
    (nextOf (exec (.parse .v0) { blockWith con2 [0xAAAA#64, 0#64] (zeroV 2) (zeroV 2) (zeroV 2) with
        hinQ := [⟨0x32317830, 4, true⟩] })).map (fun t => (t.v0, t.hinQ, t.phase))
      = some ([0xAAAA#64, 0#64], [], .resp .decode 0#64) := by decide

/-- T43 and T47, CON. -/
theorem test_render_contract :
    hexrender .skipLeadingZero [1#64, 0#64] = chars "10000000000000000"
      ∧ hexrender .skipLeadingZero [1#64, 0#64, 2#64] = chars "100000000000000000000000000000002" := by decide

/-- The beat form of T49 on four lanes: 5 beats, 0x30636261 first, 0x00666630 last. -/
theorem test_render_beats :
    (nextOf (exec (.render .v2) (taken
        (blockWith (Config.literal 2 .four) (zeroV 2) (zeroV 2) [0xABC#64, 0xFF#64] (zeroV 2)) (.render .v2)))).map
      (fun t => (t.houtQ.map HexBeat.count, t.houtQ.head?, t.houtQ.getLast?))
      = some ([4, 4, 4, 4, 3], some ⟨0x30636261, 4, false⟩, some ⟨0x00666630, 3, true⟩) := by decide

/-- T58, both rules. -/
theorem test_add_carry_rules :
    addValue .sumEqMax [0#64, 0#64, m] [0#64, m, 1#64] = [1#64, m, 0#64]
      ∧ addValue .exactCarry [0#64, 0#64, m] [0#64, m, 1#64] = [1#64, 0#64, 0#64] := by decide

/-- T61: the destination is both sources. -/
theorem test_add_aliased :
    resultIn .v0 (exec (.add .v0 .v0 .v0) { s2 with v0 := [0#64, 5#64] })
      = some ([0#64, 0xA#64], .resp .ok 0#64) := by decide

/-- T73, both rules. -/
theorem test_sub_borrow_rules :
    subValue .topBit [2#64, h] [1#64, 0#64] = [0#64, h]
      ∧ subValue .exactBorrow [2#64, h] [1#64, 0#64] = [1#64, h] := by decide

/-- T66 as a command, V1 minus V2. -/
theorem test_sub :
    resultIn .v3 (exec (.sub .v3 .v1 .v2) { s2 with v1 := [1#64, 0#64], v2 := [0#64, 1#64] })
      = some ([0#64, m], .resp .ok 0#64) := by decide

/-- T28 and T34, T35: chunk placement. -/
theorem test_chunk_rules :
    hexparse 2 .fromStart (chars "123456789abcdef0fedcba9876543210")
        = .ok [0xFEDCBA9876543210#64, 0x123456789ABCDEF0#64]
      ∧ hexparse 3 .fromEnd (chars "10000000000000000") = .ok [0#64, 1#64, 0#64] := by decide

/-- T43, LIT, then T38 read back: one non-zero word that is not word N-1 does not come back (log entry 25). -/
theorem test_literal_single_word_moves :
    hexparse 2 .fromStart (hexrender .skipAllZero [1#64, 0#64]) = .ok [0#64, 1#64] := by decide

/-! ## Reset in the middle of a RENDER, and the wires of `hout` -/

/-- A RENDER of "14" on one lane whose first beat the host has taken, with rst = 1. -/
def cutOff : State :=
  { s2 with phase := .exec (.render .v1) .packetSent, houtQ := [⟨0x34, 1, true⟩], houtLog := [.beat ⟨0x31, 1, false⟩],
            rst := true }

/-- R162: the beat '1' stays with the host, its packet has no last beat, and a later packet "34" is read alone. -/
theorem test_abandoned_packet :
    (nextOf (step cutOff)).map State.houtLog = some [.beat ⟨0x31, 1, false⟩, .abandoned]
      ∧ packets ([.beat ⟨0x31, 1, false⟩, .abandoned] ++ (sendHex .one (chars "34")).map .beat) = [chars "34"] := by
  decide

/-- R172, R35: a run can have ended after a reset, and none has before it. -/
theorem test_run_ended : runEnded State.reset = true ∧ runEnded (State.powerOn lit2) = false := by decide

/-- R41: on two lanes the wires of `hin_data` are 16 and of a count 2; a payload is what they carry. -/
theorem test_hex_wires :
    Lanes.two.dataWidth = 16 ∧ Lanes.two.countWidth = 2
      ∧ (⟨0xFF6131, 2, true⟩ : HexBeat).onBus .two = ⟨0x6131, 2, true⟩ := by decide

/-! ## Witnesses: concrete states that meet all hypotheses of a statement together -/

/-- A block with `zero v1` offered. -/
def offered : State := { s2 with cmdQ := [0x01400000#32] }
/-- An RDW that has completed. -/
def responding : State := { s2 with phase := .resp .ok 5#64, rspQ := [⟨.ok, 5#64⟩] }
/-- A RENDER whose packet "6" is still with the block. -/
def rendering : State :=
  { s2 with phase := .exec (.render .v1) .packetSent, houtQ := [⟨0x36, 1, true⟩] }
/-- The beats '1' and 'a' of one packet, and the beat '7' of the next, on one lane. -/
def beat1 : HexBeat := ⟨0x31, 1, false⟩
def beatA : HexBeat := ⟨0x61, 1, true⟩
def beat7 : HexBeat := ⟨0x37, 1, true⟩

theorem witness_OneLegalEncodingPerCommand :
    decode 2 (encode (.rdw .v1 1#16)) = some (.rdw .v1 1#16) ∧ decode 2 (encode (.rdw .v1 2#16)) = none := by decide

theorem witness_DecodingFollowsTheOpcodeTable :
    decode 2 0x07C00001#32 = some (.wrw .v3 1#16) ∧ decode 2 0x07C00002#32 = none
      ∧ selectsRow 0x07C00001#32 (.wrw .v3 1#16) ∧ selectsRow 0x07C00001#32 (.wrw .v0 0#16) := by decide

theorem witness_IllegalWordChangesNothing :
    (let s : State := { s2 with cmdQ := [0x01100000#32] }
     s.blockTurn = some s ∧ s.canRun ∧ s.phase = .idle ∧ s.cmdQ = 0x01100000#32 :: [])
      ∧ illegalWord 2 0x01100000#32 ∧ illegalWord 2 0x08000000#32 ∧ illegalWord 2 0x00000000#32
      ∧ illegalWord 2 0x01010000#32 ∧ illegalWord 2 0x06100002#32 := by
  refine ⟨by decide, ?_, ?_, ?_, ?_, ?_⟩ <;> unfold illegalWord <;> decide

theorem witness_StepRunsTheDecodedCommand :
    offered.blockTurn = some offered
      ∧ (offered.withTurns [.block, .idle]).blockTurn = some (offered.withTurns [.idle])
      ∧ offered.canRun ∧ offered.phase = .idle ∧ offered.cmdQ = 0x01400000#32 :: []
      ∧ decode offered.cfg.n 0x01400000#32 = some (.zero .v1) := by decide

theorem witness_StepContinuesByPhase :
    s2.blockTurn = some s2 ∧ s2.canRun ∧ s2.phase = .idle ∧ s2.cmdQ = []
      ∧ rendering.blockTurn = some rendering ∧ rendering.canRun
      ∧ rendering.phase = .exec (.render .v1) .packetSent
      ∧ responding.blockTurn = some responding ∧ responding.canRun ∧ responding.phase = .resp .ok 5#64 := by decide

/-- The idle and accept turns: in EXEC, in RESP, in IDLE with no word, a legal word and an illegal one. -/
theorem witness_StepContinuesByPhase_accept :
    (s2.withTurns [.idle]).turns = .idle :: []
      ∧ (∀ s ∈ [rendering, responding, s2, offered, { s2 with cmdQ := [0x01100000#32] }],
          (s.withTurns [.accept]).turns = .accept :: [] ∧ (s.withTurns [.accept]).canRun)
      ∧ decode s2.cfg.n 0x01400000#32 = some (.zero .v1) ∧ decode s2.cfg.n 0x01100000#32 = none := by decide

theorem witness_PlacedCommandRunsNext :
    (Instr.wrw .v3 11#16).wellFormed State.reset.cfg.n = true
      ∧ (nextOf (step (State.reset.withFetchWord 32 (encode (.zero .v1)).toNat))).map State.phase
          = some (.resp .ok 0#64) := by decide

theorem witness_TakingApartFromExecutingIsUnobservable :
    offered.canRun ∧ offered.phase = .idle
      ∧ step (offered.withTurns (.accept :: .block :: []))
          = .next { s2 with phase := .exec (.zero .v1) .none, turns := [.block] } :=
  ⟨by decide, by decide, rfl⟩

theorem witness_TakenResponseReturnsToIdle :
    (let s := responding.withTurns [.host .takeRsp]
     s.turns = .host .takeRsp :: [] ∧ s.canRun ∧ s.phase = .resp .ok 5#64 ∧ s.rspQ = [⟨.ok, 5#64⟩])
      ∧ (let s : State := { rendering with houtQ := [beat1, beatA], turns := [.host .takeHout] }
         s.turns = .host .takeHout :: [] ∧ s.canRun ∧ s.houtQ = beat1 :: [beatA])
      ∧ (s2.withTurns [.host .takeHout]).houtQ = [] ∧ (s2.withTurns [.host .takeRsp]).rspQ = []
      ∧ (s2.withTurns [.host (.setRst true)]).turns = .host (.setRst true) :: [] := by decide

theorem witness_ResetEdgeFromAnyState :
    (let s : State := { rendering with rst := true }
     s.rst = true ∧ s.blockTurn = some s)
      ∧ (let s : State := { responding with rst := true, turns := [.accept] }
         s.rst = true ∧ s.turns = .accept :: [])
      ∧ (cutOff.rst = true ∧ cutOff.blockTurn = some cutOff ∧ cutOff.houtLog = [] ++ [.beat ⟨0x31, 1, false⟩])
      ∧ packetOpen [.beat beat7] = false := by decide

theorem witness_ResetStateOfEveryInstantiation :
    State.reset = State.resetWith Config.default ∧ (State.resetWith lit1).reg .v2 = [0#64] := by decide

theorem witness_OutputsAreZeroWhenNotValid :
    (let s : State := { responding with rst := true }
     s.rst = true ∧ s.rspValid = false)
      ∧ responding.rspValid = true ∧ responding.rspData = 5#64 ∧ responding.houtValid = false
      ∧ rendering.houtValid = true ∧ rendering.houtBeat = ⟨0x36, 1, true⟩ := by decide

/-- The outputs with a beat offered: each status code of R140, and the wires of `hout`. -/
theorem witness_OutputsAreZeroWhenNotValid_offered :
    responding.canRun ∧ responding.rspQ = ⟨.ok, 5#64⟩ :: []
      ∧ [Status.ok, .decode, .overflow, .illegal].map
          (fun st => ({ responding with rspQ := [⟨st, 0#64⟩] } : State).rspStatus) = [0#2, 1#2, 2#2, 3#2]
      ∧ rendering.canRun ∧ rendering.houtQ = ⟨0x36, 1, true⟩ :: []
      ∧ (⟨0x36, 1, true⟩ : HexBeat).fits rendering.cfg.lanes ∧ rendering.houtData.toNat = 0x36
      ∧ rendering.houtCount.toNat = 1 ∧ rendering.houtLast = true := by decide

theorem witness_ReadyOutputsByPhase :
    s2.canRun ∧ s2.cmdReady = true
      ∧ (taken s2 (.wrw .v3 1#16)).dinReady = true
      ∧ (taken s2 (.wrw .v3 1#16)).canRun
      ∧ (taken s2 (.parse .v3)).hinReady = true
      ∧ (taken s2 (.parse .v3)).canRun := by decide

theorem witness_CommandBeforeFirstResetFaults :
    (let s := (State.powerOn lit2).withTurns [.host (.offerCmd 0x01400000#32)]
     s.boot = .unreset ∧ s.turns = .host (.offerCmd 0x01400000#32) :: [])
      ∧ (let s : State := { State.powerOn lit2 with cmdQ := [0x01400000#32] }
         s.boot = .unreset ∧ s.blockTurn = some s ∧ s.rst = false ∧ s.cmdQ ≠ [])
      ∧ (let s : State := { State.powerOn lit2 with cmdQ := [0x01400000#32], turns := [.accept] }
         s.boot = .unreset ∧ s.turns = .accept :: [] ∧ s.rst = false ∧ s.cmdQ ≠ [])
      ∧ (let s := State.powerOn lit2
         s.boot = .unreset ∧ s.blockTurn = some s ∧ s.rst = false ∧ s.cmdQ = [] ∧ s.phase = .idle) := by decide

theorem witness_ProtocolViolationsAreRefused :
    (offered.withTurns [.host (.dropValid .cmd)]).offered .cmd = true
      ∧ (s2.withTurns [.host (.dropValid .cmd)]).offered .cmd = false
      ∧ (offered.withTurns [.host (.changePayload .cmd)]).turns = .host (.changePayload .cmd) :: []
      ∧ (s2.withTurns [.host (.offerStale .hin)]).turns = .host (.offerStale .hin) :: []
      ∧ (s2.withTurns [.host (.offerHin ⟨0x3131, 2, true⟩)]).turns = .host (.offerHin ⟨0x3131, 2, true⟩) :: []
      ∧ s2.cfg.lanes.count < 2 := by decide

theorem witness_OfferedBeatsAreQueued :
    (s2.withTurns [.host (.offerCmd 0x01400000#32)]).boot = .ready
      ∧ (State.reset.withTurns [.host (.offerCmd 0x01400000#32)]).boot = .fresh
      ∧ (s2.withTurns [.host (.offerDin m)]).turns = .host (.offerDin m) :: []
      ∧ (s2.withTurns [.host (.offerHin beatA)]).turns = .host (.offerHin beatA) :: []
      ∧ beatA.count ≤ s2.cfg.lanes.count
      ∧ (⟨0x6131, 1, true⟩ : HexBeat).count ≤ s2.cfg.lanes.count
      ∧ ((⟨0x6131, 1, true⟩ : HexBeat).onBus s2.cfg.lanes).data = 0x31 := by decide

/-- Each way of waiting: no command word, no packet, no data word, an untaken beat, an untaken response. -/
theorem witness_WaitingBlockIsStuck :
    ∀ s ∈ [s2, taken s2 (.parse .v0), taken s2 (.wrw .v0 1#16), rendering, responding],
      s.blockTurn = some s ∧ s.canRun ∧ s.enabled = false := by decide

theorem witness_EnabledBlockMakesProgress :
    ∀ s ∈ [offered, taken { s2 with hinQ := [beat1] } (.parse .v0),
           taken { s2 with dinQ := [m] } (.wrw .v0 1#16), { rendering with houtQ := [] },
           taken s2 (.add .v0 .v1 .v1)],
      s.blockTurn = some s ∧ s.canRun ∧ s.enabled = true := by decide

theorem witness_OnlyTheHostStopsARun :
    State.reset.boot ≠ .unreset
      ∧ (s2.withTurns [.host (.offerStale .hin)]).boot ≠ .unreset
      ∧ step (s2.withTurns [.host (.offerStale .hin)]) = .refused (.staleBeat .hin) :=
  ⟨by decide, by decide, rfl⟩

theorem witness_CommandTakenOnlyWhenReady :
    offered.rst = false ∧ (nextOf (step offered)).map State.cmdQ = some []
      ∧ (nextOf (step (offered.withTurns [.host (.offerCmd 7#32)]))).map State.cmdQ = some [0x01400000#32, 7#32]
      ∧ (nextOf (step { responding with cmdQ := [7#32] })).map State.cmdQ = some [7#32] := by decide

/-- States of every phase that meet the invariant and have a next state. -/
theorem witness_StepKeepsTheInvariant :
    ∀ s ∈ [State.reset, offered, responding, rendering, taken { s2 with hinQ := [beat1] } (.parse .v0)],
      s.Inv ∧ (nextOf (step s)).isSome = true := by decide

theorem witness_InvariantAtReset :
    Config.wf lit1 ∧ Config.wf (Config.contract 65536 .sixteen) ∧ ¬ Config.wf (Config.literal 65537 .one) := by decide

theorem witness_CommandFrame :
    ∀ i ∈ [Instr.zero .v1, .parse .v1, .render .v1, .add .v0 .v1 .v1, .sub .v0 .v1 .v1, .rdw .v1 1#16, .wrw .v1 1#16],
      (nextOf (exec i (taken { s2 with hinQ := [beatA, beat7], dinQ := [m] } i))).isSome = true := by decide

theorem witness_DestinationChangesOnlyOnOk :
    (nextOf (exec (.add .v0 .v1 .v1) s2)).map (fun t => (decide (t.v0 ≠ s2.v0), t.v0)) = some (true, [10#64, 12#64])
      ∧ (nextOf (exec (.sub .v1 .v1 .v0) s2)).map State.v1 = some [5#64, 6#64] := by decide

/-- A command that stays in EXEC, one that ends with data, one that ends with an error. -/
theorem witness_OneResponsePerCommand :
    (taken s2 (.render .v1)).phase = .exec (.render .v1) .none
      ∧ (nextOf (exec (.render .v1) (taken s2 (.render .v1)))).map State.phase
          = some (.exec (.render .v1) .packetSent)
      ∧ (nextOf (exec (.rdw .v1 0#16) (taken s2 (.rdw .v1 0#16)))).map State.rspQ = some [⟨.ok, 5#64⟩]
      ∧ (nextOf (exec (.rdw .v1 2#16) (taken s2 (.rdw .v1 2#16)))).map State.rspQ
          = some [⟨.illegal, 0#64⟩] := by decide

/-- Every status of every kind of command. -/
theorem witness_StatusesOfEachCommand :
    (nextOf (exec (.zero .v1) (taken s2 (.zero .v1)))).map State.phase = some (.resp .ok 0#64)
      ∧ (nextOf (exec (.wrw .v1 2#16) (taken s2 (.wrw .v1 2#16)))).map State.phase
          = some (.resp .illegal 0#64)
      ∧ (nextOf (exec (.rdw .v1 1#16) (taken s2 (.rdw .v1 1#16)))).map State.phase = some (.resp .ok 6#64)
      ∧ (nextOf (exec (.parse .v1) (taken { s2 with hinQ := [⟨0x67, 1, true⟩] } (.parse .v1)))).map State.phase
          = some (.resp .decode 0#64) := by decide

/-- The last index and the first that is out of range. -/
theorem witness_RdwReadsOneWord :
    (s2.reg .v1).length = s2.cfg.n ∧ (1#16).toNat < s2.cfg.n ∧ s2.cfg.n ≤ (2#16).toNat := by decide

theorem witness_WrwWritesOneWord :
    (let s : State := { s2 with dinQ := [m] }
     (1#16).toNat < s.cfg.n ∧ (s.reg .v3).length = s.cfg.n ∧ s.dinQ = m :: []) := by decide

theorem witness_WrwWaitsAndRejects :
    (1#16).toNat < s2.cfg.n ∧ s2.dinQ = [] ∧ s2.cfg.n ≤ (2#16).toNat := by decide

theorem witness_ParseCommitsItsPacket :
    (let s : State := { s2 with hinQ := [beat1] ++ beatA :: [beat7] }
     s.hinQ = [beat1] ++ beatA :: [beat7] ∧ (∀ x ∈ [beat1], x.last = false) ∧ beatA.last = true
      ∧ hexparse s.cfg.n s.cfg.chunkRule (s.temps.received ++ ([beat1] ++ [beatA]).flatMap HexBeat.chars)
          = .ok [0#64, 0x1a#64]) := by decide

/-- One packet with a 'g', and, after 32 gathered digits, a packet that ends with a 33rd. -/
theorem witness_ParseReportsItsErrors :
    (let s : State := { s2 with hinQ := [beat1] ++ ⟨0x67, 1, true⟩ :: [] }
     s.hinQ = [beat1] ++ ⟨0x67, 1, true⟩ :: [] ∧ (∀ x ∈ [beat1], x.last = false)
      ∧ (0x67#8 ∈ s.temps.received ++ ([beat1] ++ [(⟨0x67, 1, true⟩ : HexBeat)]).flatMap HexBeat.chars) ∧ isHex 0x67#8 = false)
    ∧ (let s : State := { s2 with phase := .exec (.parse .v0) (.text (List.replicate 32 0x30#8)),
                                  hinQ := [] ++ beatA :: [] }
       let text := s.temps.received ++ ([] ++ [beatA]).flatMap HexBeat.chars
       s.hinQ = [] ++ beatA :: [] ∧ beatA.last = true ∧ (∀ c ∈ text, isHex c = true)
        ∧ 16 * s.cfg.n < text.length) := by decide

theorem witness_ParseGathersAnUnfinishedPacket :
    (let s : State := { s2 with hinQ := [beat1] }
     s.hinQ ≠ [] ∧ ∀ x ∈ s.hinQ, x.last = false) := by decide

/-- "1a" in two beats of one lane and in one beat of four. -/
theorem witness_ParseDoesNotDependOnBeatCuts :
    (let s : State := { s2 with hinQ := [beat1] ++ [beatA] }
     let s' : State := { s with cfg := Config.literal 2 .four, hinQ := [] ++ [⟨0x6131, 2, true⟩] }
     s'.cfg.n = s.cfg.n ∧ s'.cfg.chunkRule = s.cfg.chunkRule
      ∧ ([beat1] ++ [beatA]).flatMap HexBeat.chars = ([] ++ [(⟨0x6131, 2, true⟩ : HexBeat)]).flatMap HexBeat.chars
      ∧ s.temps.received = [] ∧ s'.temps.received = []
      ∧ (nextOf (exec (.parse .v0) s)).isSome = true ∧ (nextOf (exec (.parse .v0) s')).isSome = true) := by decide

/-- T36, T33 (shortened): a single bad code, and none. -/
theorem witness_ParseDecodeErrorIffNonHex :
    isHex 0x80#8 = false ∧ hexparse 1 .fromStart [0x80#8] = .decode ∧ hexparse 1 .fromStart [] = .ok [0#64] := by decide

/-- 16 and 17 digits on one word (T24, T25). -/
theorem witness_ParseOverflowDependsOnLength :
    (∀ c ∈ chars "0ffffffffffffffff", isHex c = true)
      ∧ hexparse 1 .fromEnd (chars "0ffffffffffffffff") = .overflow
      ∧ (∀ c ∈ chars "ffffffffffffffff", isHex c = true)
      ∧ hexparse 1 .fromEnd (chars "ffffffffffffffff") = .ok [m] := by decide

/-- The example of R106, with the last length that fits beside it. -/
theorem witness_ParsedValue :
    (let text := chars "10000000000000000"
     (∀ x ∈ text, isHex x = true) ∧ text.length ≤ 16 * 2 ∧ 2 = (text.length + 15) / 16
      ∧ words 2 (digitsVal text) = [1#64, 0#64] ∧ hexparse 2 .fromStart text = .ok [0#64, 1#64])
    ∧ (List.replicate 32 0x66#8).length ≤ 16 * 2 := by decide

theorem witness_RenderSendsItsPacket :
    (taken s2 (.render .v1)).phase = .exec (.render .v1) .none := by decide

theorem witness_RenderRespondsAfterItsLastBeat :
    rendering.phase = .exec (.render .v1) .packetSent ∧ rendering.houtQ ≠ []
      ∧ (let s : State := { rendering with houtQ := [] }
         s.phase = .exec (.render .v1) .packetSent ∧ s.houtQ = []) := by decide

/-- RENDER of [0, 0x6a] on one lane: two beats, five steps. -/
theorem witness_RenderRunsToItsEnd :
    (let s : State := { s2 with
       v1 := [0#64, 0x6a#64], cmdQ := [0x03100000#32]
       turns := .block :: (List.replicate 2 (.host .takeHout) ++ [.block, .host .takeRsp]) }
     s.Inv ∧ s.canRun ∧ s.phase = .idle ∧ s.cmdQ = [encode (.render .v1)]
      ∧ 2 = (sendHex s.cfg.lanes (hexrender s.cfg.renderRule (s.reg .v1))).length) := by decide

theorem witness_RenderedForm :
    (zeroV 2).length = 2 ∧ hexrender .skipAllZero (zeroV 2) = [] ∧ ([0#64, 0x123#64] : Value) ≠ zeroV 2 := by decide

/-- R115(c). -/
theorem witness_RenderedValue :
    hexrender .skipAllZero [1#64, 0#64, 2#64] = chars "10000000000000002"
      ∧ digitsVal (hexrender .skipAllZero [1#64, 0#64, 2#64]) ≠ val [1#64, 0#64, 2#64]
      ∧ digitsVal (hexrender .skipAllZero [0#64, 1#64, 2#64]) = val [0#64, 1#64, 2#64] := by decide

theorem witness_ContractRoundTrips :
    (let text := chars "0aBcD"
     (∀ c ∈ text, isHex c = true) ∧ text.length ≤ 16 * 1 ∧ hexparse 1 .fromEnd text = .ok [0xABCD#64]
      ∧ strip0 (text.map lower) = chars "abcd") := by decide

/-- A palindromic block at the low end comes back. -/
theorem witness_LiteralRoundTripExactlyWhen :
    [0#64, 1#64, 1#64] = zeroV 1 ++ [1#64, 1#64] ∧ [1#64, 1#64].reverse = [1#64, 1#64]
      ∧ hexparse 3 .fromStart (hexrender .skipAllZero [0#64, 1#64, 1#64]) = .ok [0#64, 1#64, 1#64] := by decide

/-- The empty string is one beat; a full last beat; a partial last beat. -/
theorem witness_HexOutPacketShape :
    sendHex .four [] = [⟨0, 0, true⟩] ∧ (sendHex .four (chars "68ac")).length = 1
      ∧ (sendHex .four (chars "68ac1")).map HexBeat.count = [4, 1] := by decide

theorem witness_AddResult : (s2.reg .v1).length = s2.cfg.n ∧ (s2.reg .v0).length = s2.cfg.n := by decide

theorem witness_SubResult : (s2.reg .v1).length = s2.cfg.n ∧ (s2.reg .v1).length = s2.cfg.n := by decide

theorem witness_ExactAddition :
    ([m, m] : Value).length = 2 ∧ ([0#64, 1#64] : Value).length = 2
      ∧ addValue .exactCarry [m, m] [0#64, 1#64] = zeroV 2 := by decide

/-- T67: a smaller minuend. -/
theorem witness_ExactSubtraction :
    (zeroV 2).length = 2 ∧ ([0#64, 1#64] : Value).length = 2 ∧ val (zeroV 2) < val [0#64, 1#64]
      ∧ subValue .exactBorrow (zeroV 2) [0#64, 1#64] = [m, m] := by decide

theorem witness_SumEqMaxAddition :
    ([0#64, m] : Value).length = 2 ∧ (zeroV 2).length = 2 ∧ addValue .sumEqMax [0#64, m] (zeroV 2) = [1#64, m] := by
  decide

/-- The examples of R126(e) and (f), the sum 2^65 - 1, and a plain one. -/
theorem witness_SumEqMaxAgainstExactCarry :
    (carryOut .sumEqMax (addSum m 0#64 false) (addWord m 0#64 false) = true
      ∧ carryOut .exactCarry (addSum m 0#64 false) (addWord m 0#64 false) = false)
    ∧ (carryOut .sumEqMax (addSum 1#64 m false) (addWord 1#64 m false) = false
      ∧ carryOut .exactCarry (addSum 1#64 m false) (addWord 1#64 m false) = true)
    ∧ addSum m m true = 2 ^ 65 - 1 ∧ addSum 1#64 2#64 false < 2 ^ 64 := by decide

/-- T57 is exact, T53 is not. -/
theorem witness_SumEqMaxExactIff :
    val (addValue .sumEqMax [1#64, 2#64] [3#64, 4#64]) = (val [1#64, 2#64] + val [3#64, 4#64]) % 2 ^ 128
      ∧ val (addValue .sumEqMax [0#64, m] (zeroV 2)) ≠ (val [0#64, m] + val (zeroV 2)) % 2 ^ 128
      ∧ addSum m 0#64 (addLoop .sumEqMax [] []).out = 2 ^ 64 - 1 := by decide

theorem witness_TopBitSubtraction :
    ([0#64, h] : Value).length = 2 ∧ (zeroV 2).length = 2 ∧ subValue .topBit [0#64, h] (zeroV 2) = [m, h] := by decide

/-- The examples of R134(d) and (e), and the two ends of (c). -/
theorem witness_TopBitAgainstExactBorrow :
    subDiff h 0#64 false = 2 ^ 63 ∧ subDiff 0#64 (h + 1#64) false = -2 ^ 63 - 1
      ∧ subDiff (h - 1#64) m false = -2 ^ 63 ∧ subDiff (h - 1#64) 0#64 false = 2 ^ 63 - 1
      ∧ subDiff 0#64 m true = -2 ^ 64 ∧ subDiff m 0#64 false = 2 ^ 64 - 1 := by decide

/-- T67 is exact, T64 is not. -/
theorem witness_TopBitExactIff :
    (val (subValue .topBit (zeroV 2) [0#64, 1#64]) : Int) = ((val (zeroV 2) : Int) - val [0#64, 1#64]) % 2 ^ 128
      ∧ (val (subValue .topBit [0#64, h] (zeroV 2)) : Int) ≠ ((val [0#64, h] : Int) - val (zeroV 2)) % 2 ^ 128
      ∧ subDiff h 0#64 (subLoop .topBit [] []).out = 2 ^ 63 := by decide

theorem witness_SubtractingARegisterFromItself : (s2.reg .v1).length = s2.cfg.n := by decide

end Sys2Proof.Tests
end

section
/-! The invariant of the reset states: a reset edge restores it from any state, and the two starting states
of the machine are the result of a reset edge, up to the record of where the block stands with respect to reset. -/

namespace Sys2Proof.Machine

/-- A reset edge leaves zero registers of N words. -/
theorem regsSized_resetEdge (s : State) : regsSized s.resetEdge :=
  ⟨zeroV_length _, zeroV_length _, zeroV_length _, zeroV_length _⟩

/-- A reset edge empties both hex channels and cuts off the packet the host had begun to take (R162, R163). -/
theorem hexChannelsFit_resetEdge (s : State) : hexChannelsFit s.resetEdge := by
  refine ⟨List.forall_mem_nil _, List.forall_mem_nil _, ?_⟩
  simp only [State.resetEdge_houtQ, State.resetEdge_houtLog, houtWhole_nil, packetOpen_cutRecord, Bool.not_false]

/-- A reset edge establishes the invariant whatever the state before it was: only the bounds of N are needed. -/
theorem State.inv_resetEdge {s : State} (hn : s.cfg.wf) : s.resetEdge.Inv :=
  ⟨hn, regsSized_resetEdge s, rfl, hexChannelsFit_resetEdge s⟩

/-- The reset state of an instantiation is fixed by a reset edge. -/
theorem State.resetEdge_resetWith (c : Config) : (State.resetWith c).resetEdge = State.resetWith c := rfl

/-- The invariant does not speak of where the block stands with respect to reset. -/
theorem State.inv_setBoot (s : State) (b : Boot) : State.Inv { s with boot := b } ↔ s.Inv := Iff.rfl

theorem State.inv_resetWith {c : Config} (hn : c.wf) : (State.resetWith c).Inv := by
  rw [← State.resetEdge_resetWith]
  exact State.inv_resetEdge hn

theorem State.inv_powerOn {c : Config} (hn : c.wf) : (State.powerOn c).Inv :=
  (State.inv_setBoot (State.resetWith c) .unreset).mpr (State.inv_resetWith hn)

/-- Settles O22: the reset state is the result of a reset edge, and the state before the first reset differs from it
only in a field the invariant does not read. -/
theorem invariantAtReset : Obligations.InvariantAtReset :=
  fun _ hn => ⟨State.inv_resetWith hn, State.inv_powerOn hn⟩

end Sys2Proof.Machine
end

section
/-! What one move of a command in EXEC can do, said once: the statements about every command and the invariant cite
these cases and unfold no meaning. -/

namespace Sys2Proof.Machine

variable {i : Instr} {s t u : State}

/-- The beats a command takes from the host in one move (10_state.md R41): WRW one word of `din`, PARSE some beats of
`hin`, and no command any other. -/
inductive CommandTakes (s : State) : Instr → State → Prop
  | nothing (i : Instr) : CommandTakes s i s
  | word (rd : Reg) (idx : BitVec 16) {x : Word} {q : List Word} (hq : s.dinQ = x :: q) :
      CommandTakes s (.wrw rd idx) (s.setDinQ q)
  | beats (rd : Reg) {q : List HexBeat} (hq : ∀ b ∈ q, b ∈ s.hinQ) : CommandTakes s (.parse rd) (s.setHinQ q)

/-- What one move of a command can do (70_reset_and_hazards.md R160(2), (3)): wait, gather a part of a packet, produce
a packet, or end with an error, with a new value of its destination, or with an answer alone. -/
inductive CommandMove (s : State) : Instr → State → Prop
  | waits (i : Instr) : CommandMove s i s
  | gathers (rd : Reg) (text : Str) {q : List HexBeat} (hq : ∀ b ∈ q, b ∈ s.hinQ) :
      CommandMove s (.parse rd) { s with hinQ := q, phase := .exec (.parse rd) (.text text) }
  | sends (ra : Reg) (ht : s.temps ≠ .packetSent) :
      CommandMove s (.render ra) { s with
        houtQ := s.houtQ ++ sendHex s.cfg.lanes (hexrender s.cfg.renderRule (s.reg ra))
        phase := .exec (.render ra) .packetSent }
  | fails {i : Instr} {u : State} (e : Status) (hi : ∀ ra, i ≠ .render ra) (hu : CommandTakes s i u) :
      CommandMove s i (u.raise e)
  | commits {i : Instr} {u : State} {rd : Reg} {v : Value} (hd : destOf i = some rd) (hu : CommandTakes s i u)
      (hv : regsSized s → v.length = s.cfg.n) : CommandMove s i ((u.setReg rd v).sendRsp .ok 0#64)
  | reads (ra : Reg) (idx : BitVec 16) : CommandMove s (.rdw ra idx) (s.sendRsp .ok (s.word ra idx.toNat))
  | rendered (ra : Reg) (hq : s.houtQ = []) : CommandMove s (.render ra) (s.sendRsp .ok 0#64)

/-- PARSE ends with the value the parse function returns, or with its error (41_hex_decode.md R103). -/
theorem finishParse_move (rd : Reg) (text : Str) {q : List HexBeat} (hq : ∀ b ∈ q, b ∈ s.hinQ) :
    CommandMove s (.parse rd) (finishParse rd text (s.setHinQ q)) := by
  cases h : hexparse (s.setHinQ q).cfg.n (s.setHinQ q).cfg.chunkRule text with
  | ok v =>
    rw [finishParse_ok h]
    exact .commits rfl (.beats rd hq) fun _ => hexparse_ok_length h
  | decode =>
    rw [finishParse_decode h]
    exact .fails _ (by simp) (.beats rd hq)
  | overflow =>
    rw [finishParse_overflow h]
    exact .fails _ (by simp) (.beats rd hq)

theorem exec_parse_move {rd : Reg} (h : exec (.parse rd) s = .next t) : CommandMove s (.parse rd) t := by
  by_cases hq : s.hinQ = []
  · cases (exec_parse_waits hq).symm.trans h
    exact .waits _
  · rcases exec_parse_cases (rd := rd) hq with ⟨text, rest, hr, he⟩ | ⟨text, rest, hr, he⟩
    all_goals
      have hsub := recvHex_rest_subset s.temps.received s.hinQ
      rw [hr] at hsub
      cases he.symm.trans h
    · exact finishParse_move rd text hsub
    · exact .gathers rd text hsub

theorem exec_render_move {ra : Reg} (h : exec (.render ra) s = .next t) : CommandMove s (.render ra) t := by
  by_cases ht : s.temps = .packetSent
  · by_cases hq : s.houtQ = []
    · cases (exec_render_ends ht hq).symm.trans h
      exact .rendered ra hq
    · cases (exec_render_waits ht hq).symm.trans h
      exact .waits _
  · cases (exec_render_sends ht).symm.trans h
    exact .sends ra ht

theorem exec_rdw_move {ra : Reg} {idx : BitVec 16} (h : exec (.rdw ra idx) s = .next t) :
    CommandMove s (.rdw ra idx) t := by
  rcases Nat.lt_or_ge idx.toNat s.cfg.n with hn | hn
  · cases (exec_rdw_legal hn).symm.trans h
    exact .reads ra idx
  · cases (exec_rdw_illegal hn).symm.trans h
    exact .fails _ (by simp) (.nothing _)

theorem exec_wrw_move {rd : Reg} {idx : BitVec 16} (h : exec (.wrw rd idx) s = .next t) :
    CommandMove s (.wrw rd idx) t := by
  rcases Nat.lt_or_ge idx.toNat s.cfg.n with hn | hn
  · cases hq : s.dinQ with
    | nil =>
      cases (exec_wrw_waits hn hq).symm.trans h
      exact .waits _
    | cons x q =>
      cases (exec_wrw_takes hn hq).symm.trans h
      exact .commits rfl (.word rd idx hq) fun hs => by simp [regsSized_reg hs rd]
  · cases (exec_wrw_illegal hn).symm.trans h
    exact .fails _ (by simp) (.nothing _)

/-- Every move of a command is one of the cases of `CommandMove`. -/
theorem exec_move (h : exec i s = .next t) : CommandMove s i t := by
  cases i with
  | zero rd =>
    cases h
    exact .commits rfl (.nothing _) fun _ => zeroV_length _
  | add rd ra rb =>
    cases h
    exact .commits rfl (.nothing _) fun hs => by simp [addValue, regsSized_reg hs]
  | sub rd ra rb =>
    cases h
    exact .commits rfl (.nothing _) fun hs => by simp [subValue, regsSized_reg hs]
  | parse rd => exact exec_parse_move h
  | render ra => exact exec_render_move h
  | rdw ra idx => exact exec_rdw_move h
  | wrw rd idx => exact exec_wrw_move h

/-! ## The frame of a command (R33, R40, R58, R62) -/

/-- What a command leaves unchanged: the conclusion of O23, which composes along the parts of a move. -/
structure CommandKeeps (i : Instr) (s t : State) : Prop where
  regs : regsSameBut s t (destOf i)
  control : controlSame s t
  din : (∀ rd idx, i ≠ .wrw rd idx) → t.dinQ = s.dinQ
  hin : (∀ rd, i ≠ .parse rd) → t.hinQ = s.hinQ
  hout : (∀ ra, i ≠ .render ra) → t.houtQ = s.houtQ

theorem CommandKeeps.refl (i : Instr) (s : State) : CommandKeeps i s s where
  regs _ _ := rfl
  control := ⟨rfl, rfl, rfl, rfl, rfl, rfl, rfl⟩
  din _ := rfl
  hin _ := rfl
  hout _ := rfl

/-- Taking beats moves the command's own channel alone. -/
theorem CommandTakes.keeps (h : CommandTakes s i u) : CommandKeeps i s u := by
  cases h with
  | nothing => exact .refl i s
  | word rd idx =>
    exact { CommandKeeps.refl _ s with
      regs := fun r _ => s.setDinQ_reg _ r
      din := fun hi => absurd rfl (hi rd idx) }
  | beats rd =>
    exact { CommandKeeps.refl _ s with
      regs := fun r _ => s.setHinQ_reg _ r
      hin := fun hi => absurd rfl (hi rd) }

/-- A response, with whatever the command took, changes neither a register nor another channel. -/
theorem CommandKeeps.sendRsp (h : CommandKeeps i s u) (st : Status) (d : Word) : CommandKeeps i s (u.sendRsp st d) :=
  { h with regs := fun r hr => (u.sendRsp_reg st d r).trans (h.regs r hr) }

/-- Writing the destination changes no other register. -/
theorem CommandKeeps.setReg {rd : Reg} (h : CommandKeeps i s u) (hd : destOf i = some rd) (v : Value) :
    CommandKeeps i s (u.setReg rd v) where
  regs r hr := (State.reg_setReg_of_ne u v (by rintro rfl; exact hr hd)).trans (h.regs r hr)
  control := by simpa [controlSame] using h.control
  din hi := (u.setReg_dinQ rd v).trans (h.din hi)
  hin hi := (u.setReg_hinQ rd v).trans (h.hin hi)
  hout hi := (u.setReg_houtQ rd v).trans (h.hout hi)

theorem CommandMove.keeps (h : CommandMove s i t) : CommandKeeps i s t := by
  cases h with
  | waits => exact .refl i s
  | gathers rd =>
    exact { CommandKeeps.refl _ s with
      regs := fun r _ => State.reg_congr rfl rfl rfl rfl r
      hin := fun hi => absurd rfl (hi rd) }
  | sends ra =>
    exact { CommandKeeps.refl _ s with
      regs := fun r _ => State.reg_congr rfl rfl rfl rfl r
      hout := fun hi => absurd rfl (hi ra) }
  | fails e _ hu => exact hu.keeps.sendRsp e 0#64
  | commits hd hu => exact (hu.keeps.setReg hd _).sendRsp .ok 0#64
  | reads => exact (CommandKeeps.refl _ s).sendRsp .ok _
  | rendered => exact (CommandKeeps.refl _ s).sendRsp .ok 0#64

/-- Settles O23: the frame holds in each case of what a command's move can do. -/
theorem commandFrame : Obligations.CommandFrame := by
  intro i s t h
  obtain ⟨regs, control, din, hin, hout⟩ := (exec_move h).keeps
  exact ⟨regs, control, din, hin, hout⟩

/-! ## The destination (R33) -/

theorem CommandTakes.reg_eq (h : CommandTakes s i u) (r : Reg) : u.reg r = s.reg r := by
  cases h with
  | nothing => rfl
  | word => exact s.setDinQ_reg _ r
  | beats => exact s.setHinQ_reg _ r

/-- A move that does not complete with OK changes no register at all. -/
theorem CommandMove.ok_or_regs (h : CommandMove s i t) : t.phase = .resp .ok 0#64 ∨ ∀ r, t.reg r = s.reg r := by
  cases h with
  | waits => exact .inr fun _ => rfl
  | gathers => exact .inr (State.reg_congr rfl rfl rfl rfl)
  | sends => exact .inr (State.reg_congr rfl rfl rfl rfl)
  | fails e _ hu => exact .inr fun r => (State.raise_reg _ e r).trans (hu.reg_eq r)
  | commits => exact .inl rfl
  | reads => exact .inr (s.sendRsp_reg .ok _)
  | rendered => exact .inl rfl

/-- Settles O24: by the frame a changed register is the destination, and only a move that completes with OK changes
one; ADD and SUB write what they computed from the state before. -/
theorem destinationChangesOnlyOnOk : Obligations.DestinationChangesOnlyOnOk := by
  refine ⟨fun i s t r h hne => ?_, fun s t rd ra rb h => ?_, fun s t rd ra rb h => ?_⟩
  · have hmove := exec_move h
    refine ⟨?_, hmove.ok_or_regs.resolve_right fun hall => hne (hall r)⟩
    by_contra hd
    exact hne (hmove.keeps.regs r hd)
  · cases (exec_add rd ra rb s).symm.trans h
    simp
  · cases (exec_sub rd ra rb s).symm.trans h
    simp

end Sys2Proof.Machine
end

section
/-! What one step can do, said once: an edge of the clock, a move of the host, or the schedule going on. -/

namespace Sys2Proof.Machine

variable {s t : State}

/-- What an edge of `clk` can do (10_state.md R43, 70_reset_and_hazards.md R160, R161). -/
inductive EdgeMove (s : State) : State → Prop
  | reset (h : s.rst = true) : EdgeMove s s.resetEdge
  | dormant (hb : s.boot = .unreset) : EdgeMove s s
  | waits : EdgeMove s s.tick
  | begins {w : CmdWord} {rest : List CmdWord} {i : Instr} (hr : s.canRun) (hp : s.phase = .idle)
      (hq : s.cmdQ = w :: rest) (hd : decode s.cfg.n w = some i) : EdgeMove s (s.beginCommand i rest)
  | runs {w : CmdWord} {rest : List CmdWord} {i : Instr} {t : State} (hr : s.canRun) (hp : s.phase = .idle)
      (hq : s.cmdQ = w :: rest) (hd : decode s.cfg.n w = some i)
      (hm : CommandMove (s.beginCommand i rest) i t) : EdgeMove s t
  | rejects {w : CmdWord} {rest : List CmdWord} (hr : s.canRun) (hp : s.phase = .idle) (hq : s.cmdQ = w :: rest) :
      EdgeMove s (State.raise { s with cmdQ := rest, boot := .ready } .illegal)
  | executes {i : Instr} {tmp : Temps} {t : State} (hp : s.phase = .exec i tmp) (hm : CommandMove s.tick i t) :
      EdgeMove s t

theorem takeCommand_move (hr : s.canRun) (hp : s.phase = .idle) (h : takeCommand s = .next t) : EdgeMove s t := by
  cases hq : s.cmdQ with
  | nil =>
    cases (takeCommand_nil hq).symm.trans h
    exact .waits
  | cons w rest =>
    cases hd : decode s.cfg.n w with
    | none =>
      cases (takeCommand_illegal hq hd).symm.trans h
      exact .rejects hr hp hq
    | some i => exact .runs hr hp hq hd (exec_move ((takeCommand_legal hq hd).symm.trans h))

theorem acceptCommand_move (hr : s.canRun) (hp : s.phase = .idle) (h : acceptCommand s = .next t) : EdgeMove s t := by
  unfold acceptCommand at h
  split at h
  · cases h
    exact .waits
  · next w rest hq =>
    split at h
    · next i hd =>
      cases h
      exact .begins hr hp hq hd
    · cases h
      exact .rejects hr hp hq

theorem runPhase_move (hr : s.canRun) (h : runPhase s = .next t) : EdgeMove s t := by
  cases hp : s.phase with
  | idle => exact takeCommand_move hr hp ((runPhase_idle hp).symm.trans h)
  | exec i tmp => exact .executes hp (exec_move ((runPhase_exec hp).symm.trans h))
  | resp st d =>
    cases (runPhase_resp hp).symm.trans h
    exact .waits

theorem acceptPhase_move (hr : s.canRun) (h : acceptPhase s = .next t) : EdgeMove s t := by
  cases hp : s.phase with
  | idle => exact acceptCommand_move hr hp (by simpa [acceptPhase, hp] using h)
  | exec i tmp =>
    simp only [acceptPhase, hp] at h
    cases h
    exact .waits
  | resp st d =>
    simp only [acceptPhase, hp] at h
    cases h
    exact .waits

theorem acceptMove_reset (h : s.rst = true) : acceptMove s = .next s.resetEdge := by simp [acceptMove, h]

/-- Before the first reset a waiting command faults on every edge, and nothing else happens (U1, R35). -/
theorem blockMove_unreset (h1 : s.rst = false) (h2 : s.boot = .unreset) :
    blockMove s = if s.cmdQ.isEmpty && s.phase = .idle then .next s else .fault .beforeFirstReset := by
  simp [blockMove, h1, h2]

theorem acceptMove_unreset (h1 : s.rst = false) (h2 : s.boot = .unreset) : acceptMove s = blockMove s := by
  simp [acceptMove, blockMove, h1, h2]

theorem blockMove_move (h : blockMove s = .next t) : EdgeMove s t := by
  cases h1 : s.rst with
  | true =>
    cases (blockMove_reset h1).symm.trans h
    exact .reset h1
  | false =>
    by_cases h2 : s.boot = .unreset
    · rw [blockMove_unreset h1 h2] at h
      split at h <;> cases h
      exact .dormant h2
    · exact runPhase_move ⟨h1, h2⟩ ((blockMove_run h1 h2).symm.trans h)

theorem acceptMove_move (h : acceptMove s = .next t) : EdgeMove s t := by
  cases h1 : s.rst with
  | true =>
    cases (acceptMove_reset h1).symm.trans h
    exact .reset h1
  | false =>
    by_cases h2 : s.boot = .unreset
    · exact blockMove_move ((acceptMove_unreset h1 h2).symm.trans h)
    · exact acceptPhase_move ⟨h1, h2⟩ ((acceptMove_run h1 h2).symm.trans h)

/-- What a move of the host that is not refused can do (30_encoding.md R82 to R87). -/
inductive HostMoved (s : State) : State → Prop
  | nothing : HostMoved s s
  | offersCmd (w : CmdWord) : HostMoved s { s with cmdQ := s.cmdQ ++ [w] }
  | offersDin (x : Word) : HostMoved s { s with dinQ := s.dinQ ++ [x] }
  | offersHin {b : HexBeat} (hb : b.fits s.cfg.lanes) : HostMoved s { s with hinQ := s.hinQ ++ [b] }
  | takesRsp {b : RspBeat} {q : List RspBeat} (hq : s.rspQ = b :: q) :
      HostMoved s { s with rspQ := q, rspLog := s.rspLog ++ [b], phase := .idle }
  | takesHout {b : HexBeat} {q : List HexBeat} (hq : s.houtQ = b :: q) :
      HostMoved s { s with houtQ := q, houtLog := s.houtLog ++ [.beat b] }
  | drivesRst (level : Bool) : HostMoved s { s with rst := level }

theorem State.takeRsp_moved (s : State) : HostMoved s s.takeRsp := by
  unfold State.takeRsp
  split
  · split
    · exact .nothing
    · next hq => exact .takesRsp hq
  · exact .nothing

theorem State.takeHout_moved (s : State) : HostMoved s s.takeHout := by
  unfold State.takeHout
  split
  · split
    · exact .nothing
    · next hq => exact .takesHout hq
  · exact .nothing

theorem hostMove_moved {m : HostMove} (h : hostMove m s = .next t) : HostMoved s t := by
  cases m with
  | offerCmd w =>
    simp only [hostMove, State.offerCmd] at h
    split at h <;> cases h
    exact .offersCmd w
  | offerDin x =>
    cases h
    exact .offersDin x
  | offerHin b =>
    simp only [hostMove, State.offerHin] at h
    split at h <;> cases h
    next hb => exact .offersHin (HexBeat.onBus_fits hb)
  | takeRsp =>
    cases h
    exact s.takeRsp_moved
  | takeHout =>
    cases h
    exact s.takeHout_moved
  | setRst level =>
    cases h
    exact .drivesRst level
  | dropValid ch =>
    simp only [hostMove] at h
    split at h <;> cases h
    exact .nothing
  | changePayload ch =>
    simp only [hostMove] at h
    split at h <;> cases h
    exact .nothing
  | offerStale ch => cases h

/-- A step goes on with the schedule and makes one move: an edge of the clock, a move of the host, or none (U5). -/
theorem step_move (h : step s = .next t) :
    ∃ ts, t = s.withTurns ts ∨ EdgeMove (s.withTurns ts) t ∨ HostMoved (s.withTurns ts) t := by
  unfold step at h
  split at h
  · exact ⟨s.turns, .inr (.inl (blockMove_move h))⟩
  · exact ⟨_, .inr (.inl (blockMove_move h))⟩
  · exact ⟨_, .inr (.inl (acceptMove_move h))⟩
  · cases h
    exact ⟨_, .inl rfl⟩
  · exact ⟨_, .inr (.inr (hostMove_moved h))⟩

/-! ## The offered commands (R43, R61, R83) -/

theorem CommandMove.cmdQ_eq {i : Instr} (h : CommandMove s i t) : t.cmdQ = s.cmdQ := by
  obtain ⟨-, hcmd, -⟩ := h.keeps.control
  exact hcmd

/-- `cmd_ready` is 1 in IDLE when the block can run. -/
theorem State.cmdReady_of_idle (hr : s.canRun) (hp : s.phase = .idle) : s.cmdReady = true := by
  simp [State.cmdReady, State.running_of_canRun hr.1 hr.2, hp]

/-- With rst = 0 an edge leaves the offered commands as they are, or takes the first while `cmd_ready` is 1. -/
theorem EdgeMove.cmdQ_cases (h : EdgeMove s t) (h0 : s.rst = false) :
    t.cmdQ = s.cmdQ ∨ (s.cmdReady = true ∧ ∃ w, s.cmdQ = w :: t.cmdQ) := by
  cases h with
  | reset h => simp [h0] at h
  | dormant => exact .inl rfl
  | waits => exact .inl rfl
  | begins hr hp hq => exact .inr ⟨State.cmdReady_of_idle hr hp, _, hq⟩
  | runs hr hp hq _ hm => exact .inr ⟨State.cmdReady_of_idle hr hp, _, hq.trans (congrArg _ hm.cmdQ_eq.symm)⟩
  | rejects hr hp hq => exact .inr ⟨State.cmdReady_of_idle hr hp, _, hq⟩
  | executes _ hm => exact .inl hm.cmdQ_eq

/-- A move of the host leaves the offered commands as they are, or adds one at the end. -/
theorem HostMoved.cmdQ_cases (h : HostMoved s t) : t.cmdQ = s.cmdQ ∨ ∃ w, t.cmdQ = s.cmdQ ++ [w] := by
  cases h with
  | offersCmd w => exact .inr ⟨w, rfl⟩
  | nothing | offersDin | offersHin | takesRsp | takesHout | drivesRst => exact .inl rfl

/-- Settles O20: by whose move the step is, an edge of the clock or a move of the host. -/
theorem commandTakenOnlyWhenReady : Obligations.CommandTakenOnlyWhenReady := by
  intro s t h0 h
  obtain ⟨ts, rfl | hedge | hhost⟩ := step_move h
  · exact .inl rfl
  · exact (hedge.cmdQ_cases h0).imp_right .inr
  · exact hhost.cmdQ_cases.imp_right .inl

end Sys2Proof.Machine
end

section
/-! Every move keeps the invariant of the machine. The proofs follow the cases of `CommandMove`, `EdgeMove` and
`HostMoved`. -/

namespace Sys2Proof.Machine

variable {i : Instr} {tmp : Temps} {s t u : State}

/-! ## The phase and what is offered, phase by phase (R42, R43, R44) -/

theorem phaseFits_idle (hp : s.phase = .idle) : phaseFits s = true ↔ s.rspQ = [] ∧ s.houtQ = [] := by
  simp [phaseFits, hp]

theorem phaseFits_exec (hp : s.phase = .exec i tmp) :
    phaseFits s = true ↔
      s.rspQ = [] ∧ i.wellFormed s.cfg.n = true ∧ tempsFit i tmp = true ∧ (s.houtQ = [] ∨ tmp = .packetSent) := by
  simp [phaseFits, hp, and_assoc]

theorem phaseFits_resp {st : Status} {d : Word} (hp : s.phase = .resp st d) :
    phaseFits s = true ↔ s.rspQ = [⟨st, d⟩] ∧ s.houtQ = [] := by
  simp [phaseFits, hp]

/-- Only a RENDER has produced a packet. -/
theorem tempsFit_packetSent : tempsFit i .packetSent = true ↔ ∃ ra, i = .render ra := by
  cases i <;> simp [tempsFit]

theorem State.Inv.cfg_wf (hs : s.Inv) : s.cfg.wf := And.left hs

theorem State.Inv.regs (hs : s.Inv) : regsSized s := by
  obtain ⟨-, hregs, -⟩ := hs
  exact hregs

theorem State.Inv.phase (hs : s.Inv) : phaseFits s = true := by
  obtain ⟨-, -, hphase, -⟩ := hs
  exact hphase

/-- While a command other than RENDER executes, no hex-out beat is offered. -/
theorem State.Inv.houtQ_of_not_render (hs : s.Inv) (hp : s.phase = .exec i tmp) (hi : ∀ ra, i ≠ .render ra) :
    s.houtQ = [] := by
  obtain ⟨-, -, hfit, hout⟩ := (phaseFits_exec hp).mp hs.phase
  refine hout.resolve_right fun he => ?_
  obtain ⟨ra, hra⟩ := tempsFit_packetSent.mp (he ▸ hfit)
  exact hi ra hra

/-- A response is offered only in RESP, it is the only one, and no hex-out beat is offered beside it. -/
theorem phaseFits_rspQ_cons {b : RspBeat} {q : List RspBeat} (h : phaseFits s = true) (hq : s.rspQ = b :: q) :
    q = [] ∧ s.houtQ = [] := by
  cases hp : s.phase with
  | idle => simp [(phaseFits_idle hp).mp h] at hq
  | exec i tmp => simp [(phaseFits_exec hp).mp h] at hq
  | resp st d =>
    obtain ⟨hrsp, hout⟩ := (phaseFits_resp hp).mp h
    rw [hrsp] at hq
    cases hq
    exact ⟨rfl, hout⟩

/-- Taking an offered hex-out beat leaves the phase in order: it is a RENDER that waits. -/
theorem phaseFits_takeHout {b : HexBeat} {q : List HexBeat} (log : List HoutEntry) (h : phaseFits s = true)
    (hq : s.houtQ = b :: q) : phaseFits { s with houtQ := q, houtLog := log } = true := by
  cases hp : s.phase with
  | idle => simp [(phaseFits_idle hp).mp h] at hq
  | exec i tmp =>
    obtain ⟨hrsp, hwf, hfit, hout⟩ := (phaseFits_exec hp).mp h
    have hsent : tmp = .packetSent := hout.resolve_left (by simp [hq])
    exact (phaseFits_exec rfl).mpr ⟨hrsp, hwf, hfit, .inr hsent⟩
  | resp st d => simp [(phaseFits_resp hp).mp h] at hq

/-! ## The operations of a command -/

/-- Ending a command with its response keeps the invariant when no hex-out beat is offered. -/
theorem State.Inv.sendRsp (hs : s.Inv) (hr : s.rspQ = []) (hq : s.houtQ = []) (st : Status) (d : Word) :
    (s.sendRsp st d).Inv := by
  obtain ⟨hn, hregs, -, hhex⟩ := hs
  exact ⟨hn, hregs, (phaseFits_resp rfl).mpr ⟨by simp [hr], hq⟩, hhex⟩

theorem State.Inv.rspQ_of_exec (hs : s.Inv) (hp : s.phase = .exec i tmp) : s.rspQ = [] := by
  obtain ⟨hrsp, -⟩ := (phaseFits_exec hp).mp hs.phase
  exact hrsp

/-- Writing N words to a register keeps the invariant. -/
theorem State.Inv.setReg (hs : s.Inv) (r : Reg) {v : Value} (hv : v.length = s.cfg.n) : (s.setReg r v).Inv := by
  obtain ⟨hn, hregs, hphase, hhex⟩ := hs
  refine ⟨by simpa using hn, regsSized_setReg hregs hv, ?_, by simpa [hexChannelsFit] using hhex⟩
  simpa [phaseFits] using hphase

theorem CommandTakes.phase_eq (h : CommandTakes s i u) : u.phase = s.phase := by cases h <;> rfl

theorem CommandTakes.cfg_eq (h : CommandTakes s i u) : u.cfg = s.cfg := by cases h <;> rfl

/-- Taking offered beats keeps the invariant. -/
theorem CommandTakes.inv (h : CommandTakes s i u) (hs : s.Inv) : u.Inv := by
  obtain ⟨hn, hregs, hphase, hin, hout⟩ := hs
  cases h with
  | nothing => exact ⟨hn, hregs, hphase, hin, hout⟩
  | word => exact ⟨hn, hregs, hphase, hin, hout⟩
  | beats rd hq => exact ⟨hn, hregs, hphase, fun b hb => hin b (hq b hb), hout⟩

/-- A command's move from its own EXEC keeps the invariant. -/
theorem CommandMove.inv (h : CommandMove s i t) (hs : s.Inv) (hp : s.phase = .exec i tmp) : t.Inv := by
  have hrsp := hs.rspQ_of_exec hp
  cases h with
  | waits => exact hs
  | gathers rd text hq =>
    have hquiet := hs.houtQ_of_not_render hp (by simp)
    obtain ⟨hn, hregs, -, hin, hout⟩ := hs
    exact ⟨hn, hregs, (phaseFits_exec rfl).mpr ⟨hrsp, rfl, rfl, .inl hquiet⟩, fun b hb => hin b (hq b hb), hout⟩
  | sends ra ht =>
    obtain ⟨hn, hregs, hphase, hin, hout, -⟩ := hs
    refine ⟨hn, hregs, (phaseFits_exec rfl).mpr ⟨hrsp, rfl, rfl, .inr rfl⟩, hin, ?_, houtWhole_sendHex _ _ _ _⟩
    intro b hb
    exact (List.mem_append.mp hb).elim (hout b) (sendHex_fits _ _ b)
  | fails e hi hu =>
    have hup := hu.phase_eq.trans hp
    have huinv := hu.inv hs
    exact huinv.sendRsp (huinv.rspQ_of_exec hup) (huinv.houtQ_of_not_render hup hi) e 0#64
  | @commits _ u rd v hd hu hv =>
    have hi : ∀ ra, i ≠ .render ra := by
      rintro ra rfl
      cases hd
    have hlen : v.length = u.cfg.n := hu.cfg_eq ▸ hv hs.regs
    have hw := (hu.inv hs).setReg rd hlen
    have hwp := (u.setReg_phase rd v).trans (hu.phase_eq.trans hp)
    exact hw.sendRsp (hw.rspQ_of_exec hwp) (hw.houtQ_of_not_render hwp hi) .ok 0#64
  | reads => exact hs.sendRsp hrsp (hs.houtQ_of_not_render hp (by simp)) .ok _
  | rendered ra hq => exact hs.sendRsp hrsp hq .ok 0#64

/-! ## The moves of a step -/

/-- Taking a legal command word in IDLE keeps the invariant. -/
theorem State.Inv.beginCommand (hs : s.Inv) (hp : s.phase = .idle) (hi : i.wellFormed s.cfg.n = true)
    (rest : List CmdWord) : (s.beginCommand i rest).Inv := by
  obtain ⟨hn, hregs, hphase, hhex⟩ := hs
  obtain ⟨hrsp, hquiet⟩ := (phaseFits_idle hp).mp hphase
  exact ⟨hn, hregs, (phaseFits_exec rfl).mpr ⟨hrsp, hi, rfl, .inl hquiet⟩, hhex⟩

theorem EdgeMove.inv (h : EdgeMove s t) (hs : s.Inv) : t.Inv := by
  cases h with
  | reset => exact State.inv_resetEdge hs.cfg_wf
  | dormant => exact hs
  | waits => exact (State.inv_setBoot s .ready).mpr hs
  | begins _ hp _ hd => exact hs.beginCommand hp (decode_eq_some.mp hd).2 _
  | runs _ hp _ hd hm => exact hm.inv (hs.beginCommand hp (decode_eq_some.mp hd).2 _) rfl
  | @rejects _ rest _ hp =>
    obtain ⟨hrsp, hquiet⟩ := (phaseFits_idle hp).mp hs.phase
    exact State.Inv.sendRsp (s := { s with cmdQ := rest, boot := .ready }) hs hrsp hquiet .illegal 0#64
  | executes hp hm => exact hm.inv ((State.inv_setBoot s .ready).mpr hs) hp

theorem HostMoved.inv (h : HostMoved s t) (hs : s.Inv) : t.Inv := by
  obtain ⟨hn, hregs, hphase, hin, hout, hwhole⟩ := hs
  cases h with
  | nothing | offersCmd | offersDin | drivesRst => exact ⟨hn, hregs, hphase, hin, hout, hwhole⟩
  | offersHin hb =>
    refine ⟨hn, hregs, hphase, fun b hmem => ?_, hout, hwhole⟩
    obtain hmem | hmem := List.mem_append.mp hmem
    · exact hin b hmem
    · exact List.mem_singleton.mp hmem ▸ hb
  | takesRsp hq =>
    have hquiet := phaseFits_rspQ_cons hphase hq
    exact ⟨hn, hregs, (phaseFits_idle rfl).mpr hquiet, hin, hout, hwhole⟩
  | takesHout hq =>
    rw [hq] at hout hwhole
    exact ⟨hn, hregs, phaseFits_takeHout _ hphase hq, hin, fun b hb => hout b (List.mem_cons_of_mem _ hb),
      houtWhole_take hwhole⟩

/-- Settles O21: the invariant does not read the schedule, and both kinds of move keep it. -/
theorem stepKeepsTheInvariant : Obligations.StepKeepsTheInvariant := by
  intro s t hs h
  obtain ⟨ts, rfl | hedge | hhost⟩ := step_move h
  · exact hs
  · exact hedge.inv hs
  · exact hhost.inv hs

end Sys2Proof.Machine
end

section
/-! The reset edge, the reset state and the time before the first reset. -/

namespace Sys2Proof.Machine

variable {s : State}

/-! ## The reset edge (R34, R161 to R163) -/

/-- An open packet is a record whose last entry is a beat that is not last. -/
theorem packetOpen_iff (log : List HoutEntry) :
    packetOpen log = true ↔ ∃ l b, log = l ++ [.beat b] ∧ b.last = false := by
  rcases List.eq_nil_or_concat log with rfl | ⟨l, e, rfl⟩
  · simp
  · cases e <;> simp

/-- A step with rst = 1 on an edge, of either kind, is the reset edge. -/
theorem step_resetEdge (h1 : s.rst = true) (h2 : (∃ b, s.blockTurn = some b) ∨ ∃ ts, s.turns = .accept :: ts) :
    ∃ ts, step s = .next (s.withTurns ts).resetEdge := by
  rcases h2 with ⟨b, hb⟩ | ⟨ts, hts⟩
  · obtain ⟨ts, rfl⟩ := blockTurn_eq hb
    exact ⟨ts, (step_blockTurn hb).trans (blockMove_reset h1)⟩
  · exact ⟨ts, (step_accept hts).trans (acceptMove_reset h1)⟩

/-- A register that holds `ZERO_V` has N words, all 0. -/
theorem State.zero_words {r : Reg} {n : Nat} (h : s.reg r = zeroV n) :
    (s.reg r).length = n ∧ ∀ j < n, s.word r j = 0#64 := by
  simp only [State.word, h]
  exact ⟨zeroV_length n, fun j _ => zeroV_getD n j⟩

/-- Settles O10: the step is the reset edge, whose fields are known. -/
theorem resetEdgeFromAnyState : Obligations.ResetEdgeFromAnyState := by
  intro s hrst hturn
  obtain ⟨ts, hstep⟩ := step_resetEdge hrst hturn
  refine ⟨_, hstep, fun r => State.zero_words (State.resetEdge_reg _ r), rfl, rfl, rfl, rfl, rfl, rfl, rfl, hrst, rfl,
    ?_, ?_, packets_cutRecord _⟩
  · intro log b hlog hb
    have hopen : packetOpen s.houtLog = true := (packetOpen_iff _).mpr ⟨log, b, hlog, hb⟩
    simp [cutRecord, hopen]
  · intro hwhole
    refine cutRecord_of_whole (Bool.eq_false_iff.mpr fun hopen => ?_)
    obtain ⟨log, b, hlog, hb⟩ := (packetOpen_iff _).mp hopen
    simp [hwhole log b hlog] at hb

/-! ## The reset state (R46) -/

/-- Settles O11: every register of the reset state is `ZERO_V`, and the outputs are those of IDLE with nothing offered. -/
theorem resetStateOfEveryInstantiation : Obligations.ResetStateOfEveryInstantiation := by
  rintro c s rfl
  have hregs (r : Reg) : (State.resetWith c).reg r = zeroV c.n := by cases r <;> rfl
  exact ⟨fun r => State.zero_words (hregs r), rfl, rfl, rfl, rfl, rfl, rfl, rfl, rfl, rfl, rfl, rfl, rfl, rfl, rfl⟩

/-! ## Before the first reset (R35, U1) -/

theorem blockMove_beforeFirstReset (h1 : s.rst = false) (h2 : s.boot = .unreset) (hq : s.cmdQ ≠ []) :
    blockMove s = .fault .beforeFirstReset := by
  simp [blockMove_unreset h1 h2, hq]

/-- Before the first reset there is nothing to observe. -/
theorem State.observe_unreset (h : s.boot = .unreset) : s.observe = none := by
  simp [State.observe, runEnded, h]

/-- Settles O14: an offer, a block turn and an accept turn each meet the check for the first reset. -/
theorem commandBeforeFirstResetFaults : Obligations.CommandBeforeFirstResetFaults := by
  intro s hboot
  refine ⟨fun w ts hts => ?_, fun b hb hrst hq => ?_, fun ts hts hrst hq => ?_, fun b hb hrst hq hp => ?_,
    State.observe_unreset hboot⟩
  · simp [step_host hts, hostMove, State.offerCmd, hboot]
  · obtain ⟨ts, rfl⟩ := blockTurn_eq hb
    exact (step_blockTurn hb).trans (blockMove_beforeFirstReset hrst hboot hq)
  · calc step s = acceptMove (s.withTurns ts) := step_accept hts
      _ = blockMove (s.withTurns ts) := acceptMove_unreset hrst hboot
      _ = .fault .beforeFirstReset := blockMove_beforeFirstReset hrst hboot hq
  · obtain ⟨ts, rfl⟩ := blockTurn_eq hb
    rw [step_blockTurn hb, blockMove_unreset (by exact hrst) (by exact hboot)]
    simp [hq, hp]

end Sys2Proof.Machine
end

section
/-! PARSE of a whole packet: what it does is the parse function's answer for the packet's string (41_hex_decode.md
R103), so it depends on the string alone and not on its beats (20_memory.md R55). -/

namespace Sys2Proof.Machine

variable {s s' : State}

/-- PARSE with a whole packet offered takes it through its last beat and ends by its string. -/
theorem exec_parse_packet {rd : Reg} {ps rest : List HexBeat} {b : HexBeat} (hq : s.hinQ = ps ++ b :: rest)
    (hps : ∀ x ∈ ps, x.last = false) (hb : b.last = true) :
    exec (.parse rd) s
      = .next (finishParse rd (s.temps.received ++ (ps ++ [b]).flatMap HexBeat.chars) (s.setHinQ rest)) := by
  have hrecv := recvHex_packet (q := rest) hps hb s.temps.received
  rw [← hq] at hrecv
  rcases exec_parse_cases (rd := rd) (s := s) (by simp [hq]) with ⟨_, _, hr, hexec⟩ | ⟨_, _, hr, -⟩
  · cases hrecv.symm.trans hr
    exact hexec
  · cases hrecv.symm.trans hr

/-- One write on states with the same registers leaves the same registers. -/
theorem State.reg_setReg_congr (h : ∀ r, s'.reg r = s.reg r) (rd : Reg) (v : Value) (r : Reg) :
    (s'.setReg rd v).reg r = (s.setReg rd v).reg r := by
  by_cases hr : r = rd
  · subst hr
    simp
  · rw [State.reg_setReg_of_ne s' v hr, State.reg_setReg_of_ne s v hr, h r]

/-- The end of a PARSE reads N, CHUNK_RULE and the registers, and nothing else of the state. -/
theorem finishParse_congr (hn : s'.cfg.n = s.cfg.n) (hrule : s'.cfg.chunkRule = s.cfg.chunkRule)
    (hregs : ∀ r, s'.reg r = s.reg r) (rd : Reg) (text : Str) :
    (∀ r, (finishParse rd text s').reg r = (finishParse rd text s).reg r)
      ∧ (finishParse rd text s').phase = (finishParse rd text s).phase := by
  have hsame : hexparse s'.cfg.n s'.cfg.chunkRule text = hexparse s.cfg.n s.cfg.chunkRule text := by rw [hn, hrule]
  cases h : hexparse s.cfg.n s.cfg.chunkRule text with
  | ok v =>
    rw [finishParse_ok h, finishParse_ok (hsame.trans h)]
    exact ⟨State.reg_setReg_congr hregs rd v, rfl⟩
  | decode =>
    rw [finishParse_decode h, finishParse_decode (hsame.trans h)]
    exact ⟨hregs, rfl⟩
  | overflow =>
    rw [finishParse_overflow h, finishParse_overflow (hsame.trans h)]
    exact ⟨hregs, rfl⟩

/-- Settles O34: both commands end by the parse function's answer for the one string. -/
theorem parseDoesNotDependOnBeatCuts : Obligations.ParseDoesNotDependOnBeatCuts := by
  intro s s' t t' rd ps ps' b b' hn hrule hregs hq hq' hps hps' hb hb' hgot hgot' htext h h'
  cases (exec_parse_packet hq hps hb).symm.trans h
  cases (exec_parse_packet hq' hps' hb').symm.trans h'
  rw [hgot, hgot', htext]
  exact finishParse_congr (s := s.setHinQ []) (s' := s'.setHinQ []) hn hrule (by simpa using hregs) rd _

end Sys2Proof.Machine
end

section
/-! Decoding and encoding: a packed word is known by its fields, `decodeRow` is the inverse of `encode`, and a word that
meets a row of the opcode table is the encoding of that row's command (30_encoding.md R70 to R79). -/

namespace Sys2Proof

variable {w : CmdWord} {i : Instr} {n : Nat}

/-! ## A word and its fields (R70) -/

/-- A packed word is known by its fields, with RSV = 0. -/
theorem eq_packFields_iff {opc : BitVec 8} {rd ra rb : BitVec 2} {idx : BitVec 16} :
    w = packFields opc rd ra rb idx ↔
      fieldOpc w = opc ∧ fieldRd w = rd ∧ fieldRa w = ra ∧ fieldRb w = rb ∧ fieldRsv w = 0#2 ∧ fieldIdx w = idx := by
  constructor
  · rintro rfl
    simp
  · rintro ⟨rfl, rfl, rfl, rfl, hrsv, rfl⟩
    exact (packFields_of_fields hrsv).symm

/-! ## Decoding and encoding (R73) -/

/-- Checks (1) and (2) of R79 on an encoding give back its command. -/
@[simp] theorem decodeRow_encode (i : Instr) : decodeRow (encode i) = some i := by
  cases i <;> simp [decodeRow, encode]

/-- Each row of R75 decodes only the words it encodes: the opcode and the zero fields are checked, the others read. -/
theorem eq_encode_of_decodeRow (h : decodeRow w = some i) : w = encode i := by
  unfold decodeRow at h
  split_ifs at h
  all_goals
    cases h
    simp [encode, eq_packFields_iff, *]

theorem decodeRow_eq_some : decodeRow w = some i ↔ w = encode i :=
  ⟨eq_encode_of_decodeRow, fun h => h ▸ decodeRow_encode i⟩

/-- Settles O1: the checks on the word invert `encode`, and the check on the index is legality. -/
theorem oneLegalEncodingPerCommand : Obligations.OneLegalEncodingPerCommand := by
  intro n w i
  rw [decode_eq_some, decodeRow_eq_some, and_comm]

/-! ## The opcode table (R75, R78) -/

/-- The command of the row of `i` with the operands a word holds. -/
def rowCommand (w : CmdWord) : Instr → Instr
  | .zero _ => .zero (Reg.ofBits (fieldRd w))
  | .parse _ => .parse (Reg.ofBits (fieldRd w))
  | .render _ => .render (Reg.ofBits (fieldRa w))
  | .add _ _ _ => .add (Reg.ofBits (fieldRd w)) (Reg.ofBits (fieldRa w)) (Reg.ofBits (fieldRb w))
  | .sub _ _ _ => .sub (Reg.ofBits (fieldRd w)) (Reg.ofBits (fieldRa w)) (Reg.ofBits (fieldRb w))
  | .rdw _ _ => .rdw (Reg.ofBits (fieldRa w)) (fieldIdx w)
  | .wrw _ _ => .wrw (Reg.ofBits (fieldRd w)) (fieldIdx w)

theorem selectsRow_encode (i : Instr) : selectsRow (encode i) i := by
  cases i with
  | zero rd => exact Laws.MatchesRow.zero rd
  | parse rd => exact Laws.MatchesRow.parse rd
  | render ra => exact Laws.MatchesRow.render ra
  | add rd ra rb => exact Laws.MatchesRow.add rd ra rb
  | sub rd ra rb => exact Laws.MatchesRow.sub rd ra rb
  | rdw ra idx => exact Laws.MatchesRow.rdw ra idx
  | wrw rd idx => exact Laws.MatchesRow.wrw rd idx

/-- Masking a word masks each of its fields. -/
theorem fields_of_and_eq {m v : CmdWord} (h : w &&& m = v) :
    fieldOpc w &&& fieldOpc m = fieldOpc v ∧ fieldRd w &&& fieldRd m = fieldRd v ∧ fieldRa w &&& fieldRa m = fieldRa v
      ∧ fieldRb w &&& fieldRb m = fieldRb v ∧ fieldRsv w &&& fieldRsv m = fieldRsv v
      ∧ fieldIdx w &&& fieldIdx m = fieldIdx v := by
  subst h
  simp only [fieldOpc, fieldRd, fieldRa, fieldRb, fieldRsv, fieldIdx, BitVec.extractLsb'_and, and_self]

/-- The fields a row's mask covers are the opcode and the fields the row does not use, so a word that meets the row is
an encoding: the converse of `selectsRow_encode`. -/
theorem eq_encode_rowCommand (h : selectsRow w i) : w = encode (rowCommand w i) := by
  have hfields := fields_of_and_eq h
  have hopc (b : BitVec 8) : b &&& 0xFF#8 = b := BitVec.and_allOnes
  have hreg (b : BitVec 2) : b &&& 3#2 = b := BitVec.and_allOnes
  have hidx (b : BitVec 16) : b &&& 0xFFFF#16 = b := BitVec.and_allOnes
  cases i
  all_goals
    simp only [rowMask, rowMatch] at hfields
    simp [fieldOpc, fieldRd, fieldRa, fieldRb, fieldRsv, fieldIdx, hopc, hreg, hidx] at hfields
    simp [encode, rowCommand, eq_packFields_iff, fieldOpc, fieldRd, fieldRa, fieldRb, fieldRsv, fieldIdx, hfields]

/-- "Also requires" (R75) is the legality of the row's command. -/
theorem rowRequires_iff (n : Nat) (w : CmdWord) (i : Instr) :
    rowRequires n w i ↔ (rowCommand w i).wellFormed n = true := by
  cases i <;> simp [rowRequires, rowCommand, Instr.wellFormed]

theorem rowCommand_encode (i : Instr) : rowCommand (encode i) i = i := by
  cases i <;> simp [rowCommand, encode]

/-- A word decodes to the command of the row it meets. -/
theorem decode_of_selectsRow (h : selectsRow w i) (hr : rowRequires n w i) : decode n w = some (rowCommand w i) :=
  (oneLegalEncodingPerCommand n w _).mpr ⟨(rowRequires_iff n w i).mp hr, eq_encode_rowCommand h⟩

/-- The match of a row is the match of its command, whatever the operands. -/
theorem rowMatch_rowCommand (w : CmdWord) (i : Instr) : rowMatch (rowCommand w i) = rowMatch i := by
  cases i <;> rfl

/-- Settles O2: the rows a word meets are the rows of the one command it encodes. -/
theorem decodingFollowsTheOpcodeTable : Obligations.DecodingFollowsTheOpcodeTable := by
  intro n w
  refine ⟨fun i h => ?_, fun hnone i ⟨hsel, hreq⟩ => ?_, fun i j hi hj => ?_⟩
  · obtain ⟨hwf, rfl⟩ := (oneLegalEncodingPerCommand n w i).mp h
    exact ⟨selectsRow_encode i, (rowRequires_iff n _ i).mpr (by rwa [rowCommand_encode])⟩
  · simp [decode_of_selectsRow hsel hreq] at hnone
  · have hdi := decodeRow_eq_some.mpr (eq_encode_rowCommand hi)
    have hdj := decodeRow_eq_some.mpr (eq_encode_rowCommand hj)
    have hsame : rowCommand w i = rowCommand w j := Option.some.inj (hdi.symm.trans hdj)
    rw [← rowMatch_rowCommand w i, hsame, rowMatch_rowCommand]

/-! ## The grounds of ILLEGAL (R77) -/

/-- No ground of ILLEGAL: a known opcode, zeros in RSV and in every unused field, and an index within N. -/
theorem not_illegalWord_iff :
    ¬ illegalWord n w ↔
      (1 ≤ (fieldOpc w).toNat ∧ (fieldOpc w).toNat ≤ 7) ∧ fieldRsv w = 0
      ∧ (usesRd (fieldOpc w) = false → fieldRd w = 0) ∧ (usesRa (fieldOpc w) = false → fieldRa w = 0)
      ∧ (usesRb (fieldOpc w) = false → fieldRb w = 0) ∧ (usesIdx (fieldOpc w) = false → fieldIdx w = 0)
      ∧ ((fieldOpc w).toNat = 6 ∨ (fieldOpc w).toNat = 7 → (fieldIdx w).toNat < n) := by
  simp only [illegalWord, not_or, not_not]
  simp only [not_and, ne_eq, not_not, not_le]

/-- A legal command's encoding has no ground of ILLEGAL. -/
theorem not_illegalWord_encode (h : i.wellFormed n = true) : ¬ illegalWord n (encode i) := by
  rw [not_illegalWord_iff]
  cases i with
  | zero | parse | render | add | sub => simp [encode, usesRd, usesRa, usesRb, usesIdx]
  | rdw _ idx | wrw _ idx =>
    have hidx : idx.toNat < n := by simpa [Instr.wellFormed] using h
    simp [encode, usesRd, usesRa, usesRb, usesIdx, hidx]

/-- The opcodes of the map of R75, one by one. -/
theorem opcode_cases {opc : BitVec 8} (h : 1 ≤ opc.toNat ∧ opc.toNat ≤ 7) :
    opc = 1#8 ∨ opc = 2#8 ∨ opc = 3#8 ∨ opc = 4#8 ∨ opc = 5#8 ∨ opc = 6#8 ∨ opc = 7#8 := by
  have hcases : opc.toNat = 1 ∨ opc.toNat = 2 ∨ opc.toNat = 3 ∨ opc.toNat = 4 ∨ opc.toNat = 5 ∨ opc.toNat = 6
      ∨ opc.toNat = 7 := by omega
  simpa [BitVec.toNat_eq] using hcases

/-- A word with no ground of ILLEGAL passes the checks of its opcode's row. -/
theorem decode_ne_none_of_not_illegalWord (h : ¬ illegalWord n w) : decode n w ≠ none := by
  obtain ⟨hmap, hrsv, hrd, hra, hrb, hidx, hn⟩ := not_illegalWord_iff.mp h
  rcases opcode_cases hmap with ho | ho | ho | ho | ho | ho | ho
  all_goals
    simp [usesRd, usesRa, usesRb, usesIdx, ho] at hrd hra hrb hidx hn
    simp [decode, decodeRow, Instr.wellFormed, *]

theorem illegalWord_iff_decode_none (n : Nat) (w : CmdWord) : illegalWord n w ↔ decode n w = none := by
  constructor
  · intro hill
    by_contra hne
    obtain ⟨i, hi⟩ := Option.ne_none_iff_exists'.mp hne
    obtain ⟨hwf, rfl⟩ := (oneLegalEncodingPerCommand n w i).mp hi
    exact not_illegalWord_encode hwf hill
  · exact fun hnone => of_not_not fun hill => decode_ne_none_of_not_illegalWord hill hnone

end Sys2Proof

namespace Sys2Proof.Machine

/-- With a word that does not decode first on `cmd`, a step in IDLE takes it and answers (ILLEGAL, 0) alone. -/
theorem step_illegal {s b : State} {w : CmdWord} {rest : List CmdWord} (hb : s.blockTurn = some b) (hr : s.canRun)
    (hp : s.phase = .idle) (hq : s.cmdQ = w :: rest) (hd : decode s.cfg.n w = none) :
    step s = .next (State.raise { b with cmdQ := rest, boot := .ready } .illegal) := by
  obtain ⟨hstep, ts, rfl⟩ := step_run hb hr.1 hr.2
  calc step s = runPhase (s.withTurns ts) := hstep
    _ = takeCommand (s.withTurns ts) := runPhase_idle hp
    _ = .next (State.raise { s.withTurns ts with cmdQ := rest, boot := .ready } .illegal) := takeCommand_illegal hq hd

/-- Settles O3: the words with a ground of ILLEGAL do not decode, and the answer to such a word is a `raise`. -/
theorem illegalWordChangesNothing : Obligations.IllegalWordChangesNothing := by
  refine ⟨illegalWord_iff_decode_none, fun s b w rest hb hr hp hq hill => ?_⟩
  refine ⟨_, step_illegal hb hr hp hq ((illegalWord_iff_decode_none _ w).mp hill), ⟨rfl, rfl⟩, ?_, ⟨rfl, rfl, rfl⟩,
    rfl, rfl, rfl, rfl, rfl, rfl⟩
  exact fun r _ => State.reg_congr rfl rfl rfl rfl r

end Sys2Proof.Machine
end

section
/-! The responses, ready outputs and protocol violations of the channels (30_encoding.md R82 to R87). -/

namespace Sys2Proof.Machine

variable {i : Instr} {s t u : State}

/-! ## One response per command (R86) -/

theorem CommandTakes.rspQ_eq (h : CommandTakes s i u) : u.rspQ = s.rspQ := by cases h <;> rfl

/-- Ending a command after it took its beats and wrote its destination is the one response beat more. -/
theorem CommandTakes.responded_raise (h : CommandTakes s i u) (e : Status) : responded s (u.raise e) e 0#64 :=
  ⟨rfl, by rw [State.raise_rspQ, h.rspQ_eq]⟩

theorem CommandTakes.responded_setReg (h : CommandTakes s i u) (rd : Reg) (v : Value) :
    responded s ((u.setReg rd v).sendRsp .ok 0#64) .ok 0#64 :=
  ⟨rfl, by rw [State.sendRsp_rspQ, State.setReg_rspQ, h.rspQ_eq]⟩

/-- Settles O25: of the cases of a command's move, only the read of a word answers with data. -/
theorem oneResponsePerCommand : Obligations.OneResponsePerCommand := by
  intro i tmp s t hp h
  cases exec_move h with
  | waits => exact .inl ⟨⟨tmp, hp⟩, rfl⟩
  | gathers rd text => exact .inl ⟨⟨.text text, rfl⟩, rfl⟩
  | sends => exact .inl ⟨⟨.packetSent, rfl⟩, rfl⟩
  | fails e _ hu => exact .inr ⟨e, 0#64, hu.responded_raise e, absurd rfl⟩
  | commits _ hu => exact .inr ⟨.ok, 0#64, hu.responded_setReg _ _, absurd rfl⟩
  | reads ra idx => exact .inr ⟨.ok, _, ⟨rfl, rfl⟩, fun _ => ⟨rfl, ra, idx, rfl⟩⟩
  | rendered => exact .inr ⟨.ok, 0#64, ⟨rfl, rfl⟩, absurd rfl⟩

/-! ## The ready outputs (R82, R83) -/

section Ready

variable (hr : s.canRun)
include hr

theorem State.cmdReady_iff : s.cmdReady = true ↔ s.phase = .idle := by
  cases hp : s.phase <;> simp [State.cmdReady, State.running_of_canRun hr.1 hr.2, hp]

/-- `din_ready` is 1 in EXEC of a WRW whose index is within N, and there alone. -/
theorem State.dinReady_iff :
    s.dinReady = true ↔ ∃ rd idx tmp, s.phase = .exec (.wrw rd idx) tmp ∧ idx.toNat < s.cfg.n := by
  rcases hp : s.phase with _ | ⟨i, tmp⟩ | _
  · simp [State.dinReady, hp]
  · cases i <;> simp [State.dinReady, State.running_of_canRun hr.1 hr.2, hp]
  · simp [State.dinReady, hp]

theorem State.hinReady_iff : s.hinReady = true ↔ ∃ rd tmp, s.phase = .exec (.parse rd) tmp := by
  rcases hp : s.phase with _ | ⟨i, tmp⟩ | _
  · simp [State.hinReady, hp]
  · cases i <;> simp [State.hinReady, State.running_of_canRun hr.1 hr.2, hp]
  · simp [State.hinReady, hp]

end Ready

/-- Settles O13: each ready output names its phase, and the three phases differ. -/
theorem readyOutputsByPhase : Obligations.ReadyOutputsByPhase := by
  intro s hr
  rw [State.cmdReady_iff hr, State.dinReady_iff hr, State.hinReady_iff hr]
  refine ⟨.rfl, ?_, .rfl, ?_, ?_, ?_⟩
  · rintro ⟨rd, idx, tmp, hp, -⟩
    exact ⟨rd, idx, tmp, hp⟩
  · rintro ⟨hidle, _, _, _, hp, -⟩
    cases hidle.symm.trans hp
  · rintro ⟨hidle, _, _, hp⟩
    cases hidle.symm.trans hp
  · rintro ⟨⟨_, _, _, hwrw, -⟩, _, _, hp⟩
    cases hwrw.symm.trans hp

/-! ## Protocol violations (U3) -/

/-- Settles O15: each violation is a move of the host with a refusal of its own. -/
theorem protocolViolationsAreRefused : Obligations.ProtocolViolationsAreRefused := by
  intro s ts
  refine ⟨fun ch hts => step_host hts, fun ch hts => step_host hts, fun ch hts => step_host hts, fun b hts hb => ?_⟩
  have hcount : ¬ b.count ≤ (s.withTurns ts).cfg.lanes.count := Nat.not_le.mpr hb
  calc step s = (s.withTurns ts).offerHin b := step_host hts
    _ = .refused .hinCountTooLarge := if_neg hcount

end Sys2Proof.Machine

namespace Sys2Proof

/-- Settles O4: each of the seven is evaluated. -/
theorem workedEncodingsAgree : Obligations.WorkedEncodingsAgree := by
  unfold Obligations.WorkedEncodingsAgree
  decide

end Sys2Proof
end

section
/-! The packet of a string: the shape of its beats, and what a receiver makes of them (30_encoding.md R84, R85). -/

namespace Sys2Proof.Machine

/-! ## The number of beats (R85) -/

/-- The beats of a packet have room for the string. -/
theorem length_le_beatCount (l : Lanes) (len : Nat) : len ≤ l.count * beatCount l len := by
  cases l <;> simp only [beatCount, Lanes.count] <;> omega

/-- Every beat before the last is full: the string goes on after it. -/
theorem lt_length_of_lt_beatCount {l : Lanes} {len k : Nat} (h : k + 1 < beatCount l len) : l.count * (k + 1) < len := by
  cases l <;> simp only [beatCount, Lanes.count] at h ⊢ <;> omega

@[simp] theorem sendHex_length (l : Lanes) (text : Str) : (sendHex l text).length = beatCount l text.length := by
  simp [sendHex]

theorem sendHex_getElem? {l : Lanes} {text : Str} {k : Nat} {b : HexBeat} (h : (sendHex l text)[k]? = some b) :
    k < beatCount l text.length ∧ b = hexBeat l text k := by
  obtain ⟨hk, rfl⟩ := List.getElem?_eq_some_iff.mp h
  exact ⟨by simpa using hk, by simp [sendHex]⟩

/-! ## One beat (R85) -/

theorem hexBeat_count (l : Lanes) (text : Str) (k : Nat) :
    (hexBeat l text k).count = min l.count (text.length - l.count * k) := by
  simp [hexBeat]

/-- All beats have LANES characters but the last, which has what is left. -/
theorem hexBeat_count_eq {l : Lanes} {text : Str} {k : Nat} (h : k < beatCount l text.length) :
    (hexBeat l text k).count
      = if k + 1 = beatCount l text.length then text.length - l.count * (beatCount l text.length - 1) else l.count := by
  rw [hexBeat_count]
  split
  · next hlast =>
    have hroom := length_le_beatCount l text.length
    rw [← hlast, Nat.mul_succ] at hroom
    rw [← hlast, Nat.add_sub_cancel]
    omega
  · next hlast =>
    have hfull : l.count * (k + 1) < text.length := lt_length_of_lt_beatCount (by omega)
    rw [Nat.mul_succ] at hfull
    omega

/-- A lane below the count holds its character of the string. -/
theorem laneOf_hexBeat {l : Lanes} {text : Str} {k j : Nat} (h : j < (hexBeat l text k).count) :
    some (laneOf (hexBeat l text k).data j) = text[l.count * k + j]? := by
  have hlanes := lanes_count_le l
  have hj : j < ((text.drop (l.count * k)).take l.count).length := h
  have hlen : ((text.drop (l.count * k)).take l.count).length ≤ 16 := by
    simp only [List.length_take]
    omega
  calc some (laneOf (hexBeat l text k).data j)
      = some ((text.drop (l.count * k)).take l.count)[j] := congrArg some (laneOf_packLanes hlen hj)
    _ = text[l.count * k + j]? := by
      rw [← List.getElem?_eq_getElem hj, List.getElem?_take_of_lt (by simp at hj; omega), List.getElem?_drop]

/-- The lanes at and above the number of packed characters are driven 0. -/
theorem laneOf_packLanes_eq_zero {cs : Str} {j : Nat} (h : cs.length ≤ j) : laneOf (packLanes cs) j = 0#8 := by
  have hlt : (packLanes cs).toNat < 2 ^ (8 * j) :=
    Nat.lt_of_lt_of_le (packLanes_lt cs) (Nat.pow_le_pow_right (by decide) (Nat.mul_le_mul_left 8 h))
  apply BitVec.eq_of_toNat_eq
  simp [laneOf, BitVec.extractLsb'_toNat, Nat.shiftRight_eq_div_pow, Nat.div_eq_of_lt hlt]

/-- Settles O47: beat k of a packet is `hexBeat`, whose count, lanes and last flag are known. -/
theorem hexOutPacketShape : Obligations.HexOutPacketShape := by
  rintro l text nb hnb
  obtain rfl : nb = beatCount l text.length := hnb
  refine ⟨sendHex_length l text, fun k b hb => ?_⟩
  obtain ⟨hk, rfl⟩ := sendHex_getElem? hb
  exact ⟨hexBeat_count_eq hk, by simp [hexBeat], fun j hj => laneOf_hexBeat hj, fun j hj => laneOf_packLanes_eq_zero hj⟩

/-! ## The packet as a string (R84, R55) -/

/-- The first beats of a packet carry the characters from the start of the string. -/
theorem flatMap_chars_hexBeat (l : Lanes) (text : Str) (k : Nat) :
    ((List.range k).map (hexBeat l text)).flatMap HexBeat.chars = text.take (l.count * k) := by
  induction k with
  | zero => simp
  | succ k ih =>
    rw [List.range_succ, List.map_append, List.flatMap_append, ih, Nat.mul_succ, List.take_add]
    simp [chars_hexBeat]

theorem sendHex_chars (l : Lanes) (text : Str) : (sendHex l text).flatMap HexBeat.chars = text := by
  rw [sendHex, flatMap_chars_hexBeat, List.take_of_length_le (length_le_beatCount l text.length)]

/-- `RecvHex` on a packet takes its string and leaves the beats after it. -/
theorem recvHex_sendHex (l : Lanes) (text got : Str) (rest : List HexBeat) :
    recvHex got (sendHex l text ++ rest) = ⟨got ++ text, true, rest⟩ := by
  obtain ⟨ps, b, hsend, hps, hb⟩ := sendHex_eq l text
  have hchars := sendHex_chars l text
  rw [hsend] at hchars
  rw [hsend, List.append_assoc, List.singleton_append, recvHex_packet hps hb, hchars]

/-- The observation reads the beats the host has taken as `RecvHex` would, one packet after the other. -/
theorem packetsFrom_beats (got : Str) (q : List HexBeat) :
    packetsFrom got (q.map .beat)
      = if (recvHex got q).complete then (recvHex got q).text :: packets ((recvHex got q).rest.map .beat) else [] := by
  induction q generalizing got with
  | nil => rfl
  | cons b q ih =>
    by_cases hb : b.last = true
    · simp [packetsFrom, packets, recvHex, hb]
    · simp [packetsFrom, recvHex, hb, ih]

theorem packets_sendHex (l : Lanes) (text : Str) : packets ((sendHex l text).map .beat) = [text] := by
  have hrecv := recvHex_sendHex l text [] []
  rw [List.append_nil] at hrecv
  rw [packets, packetsFrom_beats, hrecv]
  rfl

/-- Settles O48: the beats of a packet concatenate to the string, and after a cut no packet is open to run into it. -/
theorem sentPacketIsReceivedWhole : Obligations.SentPacketIsReceivedWhole := by
  intro l text got rest log
  refine ⟨recvHex_sendHex l text got rest, packets_sendHex l text, ?_⟩
  rw [packets_append (packetOpen_cutRecord log), packets_cutRecord, packets_sendHex]

end Sys2Proof.Machine
end

section
/-! ZERO, RDW and WRW (40_construction.md): each meaning is known by its `exec_` lemmas, and the frame of what it did
by the moves of a command. -/

namespace Sys2Proof.Machine

variable {s : State}

/-- A response alone changes no register, no data channel and no control state. -/
theorem State.sendRsp_frame (s : State) (st : Status) (d : Word) :
    regsSameBut s (s.sendRsp st d) none ∧ dataChannelsSame s (s.sendRsp st d) ∧ controlSame s (s.sendRsp st d) :=
  ⟨fun r _ => s.sendRsp_reg st d r, ⟨rfl, rfl, rfl⟩, rfl, rfl, rfl, rfl, rfl, rfl, rfl⟩

@[simp] theorem State.sendRsp_word (st : Status) (d : Word) (r : Reg) (j : Nat) :
    (s.sendRsp st d).word r j = s.word r j := by rw [State.word, State.sendRsp_reg, State.word]

@[simp] theorem State.setDinQ_word (q : List Word) (r : Reg) (j : Nat) :
    (s.setDinQ q).word r j = s.word r j := by rw [State.word, State.setDinQ_reg, State.word]

/-- Writing one word inside a register changes the reading of that word alone. -/
theorem State.word_setWord_same {r : Reg} {k : Nat} (h : k < (s.reg r).length) (x : Word) (j : Nat) :
    (s.setWord r k x).word r j = if j = k then x else s.word r j := by
  simp only [State.word, State.reg_setWord_same, List.getD_eq_getElem?_getD, List.getElem?_set]
  by_cases hj : j = k
  · subst hj
    simp [h]
  · simp [hj, Ne.symm hj]

/-! ## ZERO (R91) -/

/-- Settles O27: the destination holds `ZERO_V`, and ZERO takes no beat, so its frame is that of every command. -/
theorem zeroClearsItsDestination : Obligations.ZeroClearsItsDestination := by
  intro s rd
  have hexec := exec_zero rd s
  obtain ⟨hregs, hcontrol, hdin, hhin, hhout⟩ := (exec_move hexec).keeps
  obtain ⟨hlen, hwords⟩ := State.zero_words (s := (s.setReg rd (zeroV s.cfg.n)).sendRsp .ok 0#64) (r := rd)
    (n := s.cfg.n) (by simp)
  exact ⟨_, hexec, (CommandTakes.nothing (.zero rd)).responded_setReg rd _, hlen, hwords, hregs,
    ⟨hdin (by simp), hhin (by simp), hhout (by simp)⟩, hcontrol⟩

/-! ## RDW (R92) -/

/-- Settles O28: on either side of N the move is a response alone, whose word is the register's when idx < N. -/
theorem rdwReadsOneWord : Obligations.RdwReadsOneWord := by
  intro s ra idx hlen
  rcases Nat.lt_or_ge idx.toNat s.cfg.n with hlt | hge
  · obtain ⟨hregs, hdata, hcontrol⟩ := s.sendRsp_frame .ok (s.word ra idx.toNat)
    refine ⟨_, exec_rdw_legal hlt, hregs, hdata, hcontrol, fun hi => ?_, fun hge => absurd hlt (Nat.not_lt.mpr hge)⟩
    rw [s.word_eq_getElem (hi.trans_eq hlen.symm)]
    exact ⟨rfl, rfl⟩
  · obtain ⟨hregs, hdata, hcontrol⟩ := s.sendRsp_frame .illegal 0#64
    exact ⟨_, exec_rdw_illegal hge, hregs, hdata, hcontrol, fun hi => absurd hi (Nat.not_lt.mpr hge),
      fun _ => ⟨rfl, rfl⟩⟩

/-! ## WRW (R93) -/

/-- Settles O29: the word taken is written inside the destination, and the rest is the frame of every command. -/
theorem wrwWritesOneWord : Obligations.WrwWritesOneWord := by
  intro s rd idx x q hlt hlen hq
  have hexec := exec_wrw_takes (rd := rd) hlt hq
  obtain ⟨hregs, hcontrol, -, hhin, hhout⟩ := (exec_move hexec).keeps
  have hin : idx.toNat < ((s.setDinQ q).reg rd).length := by simpa [hlen] using hlt
  exact ⟨_, hexec, (CommandTakes.word rd idx hq).responded_setReg rd _, by simp, by simp [hlen],
    fun j _ => by simp [State.word_setWord_same hin], hregs, hhin (by simp), hhout (by simp), hcontrol⟩

/-- Settles O30: with no word offered nothing moves, and an index outside the register is answered by a response
alone. -/
theorem wrwWaitsAndRejects : Obligations.WrwWaitsAndRejects := by
  intro s rd idx
  refine ⟨exec_wrw_waits, fun hge => ?_⟩
  exact ⟨_, exec_wrw_illegal hge, ⟨rfl, rfl⟩, s.sendRsp_frame .illegal 0#64⟩

end Sys2Proof.Machine
end

section
/-! The parse function and PARSE: what a string parses to is known by its hex digits, its length and the number it
denotes (41_hex_decode.md R95 to R107), and so is what the serial decoder answers (R104). -/

namespace Sys2Proof.Machine

variable {n : Nat} {r : ChunkRule} {text : Str} {s : State}

/-! ## The chunks of a string (R99, R105) -/

/-- The words that the chunks of a string stand for, the most significant first. -/
def chunkWords (text : Str) : List Word := (chunks (padBytes (toBytes (padOdd text)))).map chunkWord

@[simp] theorem chunkWords_length (text : Str) : (chunkWords text).length = (text.length + 15) / 16 :=
  (chunks_spec _ _ (padded_length text)).1

/-- The chunks of a hex string denote the number its digits denote. -/
theorem val_chunkWords (hx : text.all isHex = true) : val (chunkWords text) = digitsVal text := by
  calc val (chunkWords text)
      = bytesVal (padBytes (toBytes (padOdd text))) := (chunks_spec _ _ (padded_length text)).2
    _ = bytesVal (toBytes (padOdd text)) := bytesVal_padBytes _
    _ = digitsVal (padOdd text) := bytesVal_toBytes _ (padOdd_even text) (by simpa using hx)
    _ = digitsVal text := digitsVal_padOdd text

/-- Zero words in front do not change the number. -/
theorem val_replicate_zero_append (k : Nat) (v : Value) : val (List.replicate k 0#64 ++ v) = val v := by
  induction k with
  | zero => rfl
  | succ k ih => simp [List.replicate_succ, ih]

/-- The N-word array of a shorter array's number is that array with zero words in front. -/
theorem words_val_of_length_le {v : Value} (h : v.length ≤ n) :
    words n (val v) = List.replicate (n - v.length) 0#64 ++ v := by
  have hlen : (List.replicate (n - v.length) 0#64 ++ v).length = n := by simp [h]
  have hword := words_val (List.replicate (n - v.length) 0#64 ++ v)
  rwa [hlen, val_replicate_zero_append] at hword

theorem chunkWords_length_le (hl : text.length ≤ 16 * n) : (chunkWords text).length ≤ n := by
  rw [chunkWords_length]
  omega

/-- The N-word array of the number a hex string denotes: its chunks are the low words. -/
theorem words_digitsVal (hx : text.all isHex = true) (hl : text.length ≤ 16 * n) :
    words n (digitsVal text) = List.replicate (n - (text.length + 15) / 16) 0#64 ++ chunkWords text := by
  rw [← val_chunkWords hx, words_val_of_length_le (chunkWords_length_le hl), chunkWords_length]

/-! ## The low words in reverse (R106(b)) -/

/-- On an array in two parts, reversing as many low words as the second part has reverses that part alone. -/
theorem reverseLow_append (u w : Value) : reverseLow w.length (u ++ w) = u ++ w.reverse := by
  simp [reverseLow]

theorem reverseLow_of_palindrome {k : Nat} {v : Value}
    (h : (v.drop (v.length - k)).reverse = v.drop (v.length - k)) : reverseLow k v = v := by
  rw [reverseLow, h, List.take_append_drop]

/-- One word reads the same in both directions. -/
theorem reverse_of_length_le_one {w : Value} (h : w.length ≤ 1) : w.reverse = w := by
  match w, h with
  | [], _ => rfl
  | [_], _ => rfl

/-- Word i from the end of the result is word i of the reversed words. -/
theorem reverseLow_getD_low {k i : Nat} {v : Value} (hk : k ≤ v.length) (hi : i < k) :
    (reverseLow k v).getD (v.length - 1 - i) 0#64 = v.getD (v.length - k + i) 0#64 := by
  have hright : (v.take (v.length - k)).length ≤ v.length - 1 - i := by simp; omega
  have hin : v.length - 1 - i - (v.take (v.length - k)).length < (v.drop (v.length - k)).length := by simp; omega
  have hidx : (v.drop (v.length - k)).length - 1 - (v.length - 1 - i - (v.take (v.length - k)).length) = i := by
    simp; omega
  rw [reverseLow, List.getD_eq_getElem?_getD, List.getElem?_append_right hright, List.getElem?_reverse hin, hidx,
    List.getElem?_drop, ← List.getD_eq_getElem?_getD]

/-- The words above the reversed ones stay. -/
theorem reverseLow_getD_high {k j : Nat} {v : Value} (hj : j < v.length - k) :
    (reverseLow k v).getD j 0#64 = v.getD j 0#64 := by
  have hleft : j < (v.take (v.length - k)).length := by simp; omega
  rw [reverseLow, List.getD_eq_getElem?_getD, List.getElem?_append_left hleft, List.getElem?_take_of_lt hj,
    ← List.getD_eq_getElem?_getD]

/-! ## What the parse function answers (R102, R105, R106) -/

theorem hexparse_of_nonHex (hx : text.all isHex = false) : hexparse n r text = .decode := by
  simp [hexparse, hx]

/-- On a hex string only the length is left to check. -/
theorem hexparse_of_hex (hx : text.all isHex = true) :
    hexparse n r text = if 16 * n < text.length then .overflow else .ok (placeChunks r n (chunkWords text)) := by
  have hcheck : 8 * n < 8 * ((text.length + 15) / 16) ↔ 16 * n < text.length := by omega
  simp only [hexparse, all_isHex_padOdd, hx, if_true, padded_length, hcheck, chunkWords]

theorem hexparse_too_long (hx : text.all isHex = true) (hl : 16 * n < text.length) :
    hexparse n r text = .overflow := by
  rw [hexparse_of_hex hx, if_pos hl]

/-- Under FROM_END a hex string parses to the number it denotes (R106(a)). -/
theorem hexparse_fromEnd (hx : text.all isHex = true) (hl : text.length ≤ 16 * n) :
    hexparse n .fromEnd text = .ok (words n (digitsVal text)) := by
  rw [hexparse_of_hex hx, if_neg (Nat.not_lt.mpr hl), placeChunks_fromEnd (chunkWords_length_le hl), chunkWords_length,
    words_digitsVal hx hl]

/-- Under FROM_START the chunks stand in reverse order (R106(b)). -/
theorem hexparse_fromStart (hx : text.all isHex = true) (hl : text.length ≤ 16 * n) :
    hexparse n .fromStart text = .ok (reverseLow ((text.length + 15) / 16) (words n (digitsVal text))) := by
  rw [hexparse_of_hex hx, if_neg (Nat.not_lt.mpr hl), placeChunks_fromStart (chunkWords_length_le hl),
    words_digitsVal hx hl, ← chunkWords_length text, reverseLow_append]

theorem hexparse_eq_decode_iff : hexparse n r text = .decode ↔ text.all isHex = false := by
  refine ⟨fun h => ?_, hexparse_of_nonHex⟩
  by_contra hne
  rw [hexparse_of_hex (Bool.eq_true_of_not_eq_false hne)] at h
  split at h <;> cases h

theorem hexparse_eq_overflow_iff (hx : text.all isHex = true) :
    hexparse n r text = .overflow ↔ 16 * n < text.length := by
  simp [hexparse_of_hex hx]

/-- Settles O35: on a string with a non-hex character the answer is DECODE at any length, and on a hex string it
never is. -/
theorem parseDecodeErrorIffNonHex : Obligations.ParseDecodeErrorIffNonHex := by
  intro n r text
  rw [hexparse_eq_decode_iff]
  simp

/-- Settles O36: on a hex string the length alone decides, and the chunks are known by their number. -/
theorem parseOverflowDependsOnLength : Obligations.ParseOverflowDependsOnLength := by
  intro n r text hhex
  have hx : text.all isHex = true := List.all_eq_true.mpr hhex
  refine ⟨hexparse_eq_overflow_iff hx, by simpa [chunkWords] using chunkWords_length text, fun v hv => ?_⟩
  have hl : ¬ 16 * n < text.length := fun hlong => by cases hv.symm.trans (hexparse_too_long hx hlong)
  omega

/-- Settles O37: FROM_END gives the array of the number, FROM_START the same with its low K words reversed. -/
theorem parsedValue : Obligations.ParsedValue := by
  intro n text k c hhex hl hk hc
  have hx : text.all isHex = true := List.all_eq_true.mpr hhex
  have hzeros : c = List.replicate (n - k) 0#64 ++ chunkWords text := by rw [hc, hk, words_digitsVal hx hl]
  have hlen : c.length = n := by rw [hc, words_length]
  have hkn : k ≤ n := by omega
  have hstart : hexparse n .fromStart text = .ok (reverseLow k c) := by rw [hk, hc, hexparse_fromStart hx hl]
  refine ⟨by rw [hc, hexparse_fromEnd hx hl], by rw [hzeros, val_replicate_zero_append, val_chunkWords hx],
    reverseLow k c, hstart, hexparse_ok_length hstart, ?_⟩
  subst hlen
  refine ⟨fun i hi => reverseLow_getD_low hkn hi, fun j hj => ?_, fun hshort => ?_, reverseLow_of_palindrome⟩
  · rw [reverseLow_getD_high hj, hzeros, List.getD_append _ _ _ _ (by simpa using hj)]
    simp [List.getD_eq_getElem?_getD, hj]
  · exact reverseLow_of_palindrome (reverse_of_length_le_one (by simp; omega))

/-! ## The serial decoder (R104) -/

/-- The temporaries after the characters of a string. -/
def serialTemps (n : Nat) (text : Str) : SerialTemps := text.foldl (SerialTemps.feed n) SerialTemps.start

@[simp] theorem serialTemps_concat (n : Nat) (text : Str) (c : Code) :
    serialTemps n (text ++ [c]) = (serialTemps n text).feed n c := by
  simp [serialTemps]

/-- The count is the length, up to where it saturates. -/
theorem serialTemps_cnt (n : Nat) (text : Str) : (serialTemps n text).cnt = min text.length (16 * n + 1) := by
  induction text using List.reverseRecOn with
  | nil => simp [serialTemps, SerialTemps.start]
  | append_singleton text c ih =>
    simp only [serialTemps_concat, SerialTemps.feed, ih, List.length_append, List.length_singleton]
    omega

theorem serialTemps_bad (n : Nat) (text : Str) : (serialTemps n text).bad = !text.all isHex := by
  induction text using List.reverseRecOn with
  | nil => rfl
  | append_singleton text c ih => simp [SerialTemps.feed, ih]

/-- One more digit on the right. -/
theorem digitsVal_concat (text : Str) (c : Code) : digitsVal (text ++ [c]) = digitsVal text * 16 + hexval c := by
  simp [digitsVal_append, digitsVal]

/-- The accumulator holds the number denoted so far, in 64N bits. -/
theorem serialTemps_acc (n : Nat) (hx : text.all isHex = true) :
    (serialTemps n text).acc = digitsVal text % 2 ^ (64 * n) := by
  induction text using List.reverseRecOn with
  | nil => simp [serialTemps, SerialTemps.start, digitsVal]
  | append_singleton text c ih =>
    obtain ⟨htext, hc⟩ : text.all isHex = true ∧ isHex c = true := by simpa using hx
    simp only [serialTemps_concat, SerialTemps.feed, hc, if_true, ih htext, digitsVal_concat]
    rw [Nat.add_mod, Nat.mod_mul_mod, ← Nat.add_mod]

theorem hexparseSerial_eq_finish (n : Nat) (r : ChunkRule) (text : Str) :
    hexparseSerial n r text = (serialTemps n text).finish n r := rfl

/-- Settles O38: the bad flag, the saturating count and the accumulator each decide what the parse function decides. -/
theorem serialDecoderIsTheParseFunction : Obligations.SerialDecoderIsTheParseFunction := by
  intro n r text
  rw [hexparseSerial_eq_finish]
  cases hx : text.all isHex with
  | false => simp [SerialTemps.finish, serialTemps_bad, hx, hexparse_of_nonHex hx]
  | true =>
    have hbad : (serialTemps n text).bad = false := by simp [serialTemps_bad, hx]
    rcases Nat.lt_or_ge (16 * n) text.length with hlong | hl
    · have hcnt : 16 * n < (serialTemps n text).cnt := by rw [serialTemps_cnt]; omega
      simp [SerialTemps.finish, hbad, hcnt, hexparse_too_long hx hlong]
    · have hcnt : (serialTemps n text).cnt = text.length := by rw [serialTemps_cnt]; omega
      have hacc : words n (serialTemps n text).acc = words n (digitsVal text) := by
        rw [serialTemps_acc n hx, words_mod]
      cases r with
      | fromEnd => simp [SerialTemps.finish, hbad, hcnt, hacc, Nat.not_lt.mpr hl, hexparse_fromEnd hx hl]
      | fromStart => simp [SerialTemps.finish, hbad, hcnt, hacc, Nat.not_lt.mpr hl, hexparse_fromStart hx hl]

/-! ## PARSE of a whole packet (R103) -/

/-- The beats after a packet were offered. -/
theorem mem_hinQ_of_rest {ps rest : List HexBeat} {b : HexBeat} (hq : s.hinQ = ps ++ b :: rest) :
    ∀ x ∈ rest, x ∈ s.hinQ := by
  intro x hx
  simp [hq, hx]

/-- Settles O31: PARSE ends by committing the value of the packet's string, and its frame is that of every command. -/
theorem parseCommitsItsPacket : Obligations.ParseCommitsItsPacket := by
  intro s rd ps rest b v hq hps hb hparse
  have hexec := exec_parse_packet (rd := rd) hq hps hb
  rw [finishParse_ok (s := s.setHinQ rest) hparse] at hexec
  obtain ⟨hregs, hcontrol, hdin, -, hhout⟩ := (exec_move hexec).keeps
  exact ⟨_, hexec, (CommandTakes.beats rd (mem_hinQ_of_rest hq)).responded_setReg rd v, by simp,
    hexparse_ok_length hparse, by simp, hregs, hdin (by simp), hhout (by simp), hcontrol⟩

/-- What a PARSE that ended with an error after a whole packet has done. -/
theorem parse_raise_frame {rest : List HexBeat} (hrest : ∀ x ∈ rest, x ∈ s.hinQ) (rd : Reg) (e : Status) :
    responded s ((s.setHinQ rest).raise e) e 0#64 ∧ ((s.setHinQ rest).raise e).hinQ = rest
      ∧ regsSameBut s ((s.setHinQ rest).raise e) none ∧ controlSame s ((s.setHinQ rest).raise e) := by
  have htakes := CommandTakes.beats rd hrest
  obtain ⟨-, hcontrol, -⟩ := htakes.keeps.sendRsp e 0#64
  exact ⟨htakes.responded_raise e, rfl, fun q _ => by simp, hcontrol⟩

/-- Settles O32: the parse function answers DECODE or OVERFLOW for the packet's string, and PARSE raises it. -/
theorem parseReportsItsErrors : Obligations.ParseReportsItsErrors := by
  intro s rd ps rest b text hq hps hb htext
  have hexec := exec_parse_packet (rd := rd) hq hps hb
  rw [← htext] at hexec
  have hframe := parse_raise_frame (mem_hinQ_of_rest hq) rd
  refine ⟨fun hbad => ?_, fun hhex hlong => ?_⟩
  · have hparse : hexparse s.cfg.n s.cfg.chunkRule text = .decode := (parseDecodeErrorIffNonHex _ _ _).mpr hbad
    rw [finishParse_decode (s := s.setHinQ rest) hparse] at hexec
    exact ⟨_, hexec, hframe .decode⟩
  · have hparse : hexparse s.cfg.n s.cfg.chunkRule text = .overflow :=
      hexparse_too_long (List.all_eq_true.mpr hhex) hlong
    rw [finishParse_overflow (s := s.setHinQ rest) hparse] at hexec
    exact ⟨_, hexec, hframe .overflow⟩

end Sys2Proof.Machine
end

section
/-! The render function: the words whose digits a rendered string consists of, its form, the number it denotes, and the
serial encoder (42_hex_encode.md R110 to R116). -/

namespace Sys2Proof.Machine

variable {r : RenderRule} {v b : Value} {w : Word} {s t : Str} {c : Code} {k : Nat}

/-! ## The strip of leading zeros -/

theorem strip0_eq_dropWhile (s : Str) : strip0 s = s.dropWhile (· = 0x30#8) := by
  induction s with
  | nil => rfl
  | cons c s ih => simp only [strip0, List.dropWhile_cons, ih, decide_eq_true_eq]

theorem strip0_append (s t : Str) : strip0 (s ++ t) = if strip0 s = [] then strip0 t else strip0 s ++ t := by
  simp [strip0_eq_dropWhile, List.dropWhile_append]

theorem strip0_append_of_ne_nil (h : strip0 s ≠ []) (t : Str) : strip0 (s ++ t) = strip0 s ++ t := by
  rw [strip0_append, if_neg h]

/-- The digits of a nonzero word do not vanish in the strip. -/
theorem strip0_hex16_ne_nil (hw : w ≠ 0#64) : strip0 (hex16 w) ≠ [] := by
  intro h
  have hval : digitsVal (strip0 (hex16 w)) = w.toNat := by simp
  rw [h] at hval
  exact hw (BitVec.eq_of_toNat_eq hval.symm)

/-! ## The words that are emitted (R111) -/

/-- The words that contribute their digits to the rendered string, by RENDER_RULE. -/
def emittedWords : RenderRule → Value → Value
  | .skipAllZero, v => v.filter (· ≠ 0#64)
  | .skipLeadingZero, v => v.dropWhile (· = 0#64)

theorem renderLoop_skipAllZero (seen : Bool) (v : Value) :
    renderLoop .skipAllZero seen v = (emittedWords .skipAllZero v).flatMap hex16 := by
  induction v generalizing seen with
  | nil => rfl
  | cons w ws ih =>
    by_cases hw : w = 0#64
    · simpa [renderLoop, emitsWord, emittedWords, hw] using ih seen
    · simpa [renderLoop, emitsWord, emittedWords, hw] using ih true

/-- Once a word has been emitted, SKIP_LEADING_ZERO emits the digits of every word. -/
theorem renderLoop_skipLeadingZero_seen (v : Value) : renderLoop .skipLeadingZero true v = v.flatMap hex16 := by
  induction v with
  | nil => rfl
  | cons w ws ih => simp [renderLoop, emitsWord, ih]

theorem renderLoop_skipLeadingZero (v : Value) :
    renderLoop .skipLeadingZero false v = (emittedWords .skipLeadingZero v).flatMap hex16 := by
  induction v with
  | nil => rfl
  | cons w ws ih =>
    by_cases hw : w = 0#64
    · simpa [renderLoop, emitsWord, emittedWords, hw] using ih
    · simp [renderLoop, emitsWord, emittedWords, hw, renderLoop_skipLeadingZero_seen]

/-- A rendered string is the digits of the emitted words without leading zeros. -/
theorem hexrender_eq (r : RenderRule) (v : Value) : hexrender r v = strip0 ((emittedWords r v).flatMap hex16) := by
  cases r with
  | skipAllZero => rw [hexrender, renderLoop_skipAllZero]
  | skipLeadingZero => rw [hexrender, renderLoop_skipLeadingZero]

theorem emittedWords_eq_nil_iff (r : RenderRule) (v : Value) : emittedWords r v = [] ↔ v = zeroV v.length := by
  cases r <;> simp [emittedWords, zeroV, List.eq_replicate_iff]

theorem ne_zero_of_mem_skipAllZero (h : w ∈ emittedWords .skipAllZero v) : w ≠ 0#64 := by
  simpa using (List.mem_filter.mp h).2

/-- Under both rules the first emitted word is a nonzero one. -/
theorem emittedWords_head (h : emittedWords r v = w :: b) : w ≠ 0#64 := by
  cases r with
  | skipAllZero => exact ne_zero_of_mem_skipAllZero (h ▸ List.mem_cons_self)
  | skipLeadingZero =>
    have hdrop : v.dropWhile (· = 0#64) = w :: b := h
    have hhead := List.head_dropWhile_not (· = 0#64) (l := v) (by simp [hdrop])
    simpa [hdrop] using hhead

/-- Zero words in front are emitted under neither rule. -/
theorem emittedWords_zeroV_append (r : RenderRule) (k : Nat) (v : Value) :
    emittedWords r (zeroV k ++ v) = emittedWords r v := by
  cases r with
  | skipAllZero => simp [emittedWords, zeroV]
  | skipLeadingZero => exact List.dropWhile_append_of_pos (by simp [zeroV])

theorem hexrender_zeroV_append (r : RenderRule) (k : Nat) (v : Value) :
    hexrender r (zeroV k ++ v) = hexrender r v := by
  rw [hexrender_eq, emittedWords_zeroV_append, ← hexrender_eq]

/-! ## The form of a rendered string (R114) -/

/-- The first emitted word gives 1 to 16 characters and every other gives 16. -/
theorem hexrender_length_bounds (r : RenderRule) (v : Value) :
    16 * (emittedWords r v).length ≤ (hexrender r v).length + 15
      ∧ (hexrender r v).length ≤ 16 * (emittedWords r v).length := by
  rw [hexrender_eq]
  cases h : emittedWords r v with
  | nil => simp [strip0]
  | cons w ws =>
    have hne := strip0_hex16_ne_nil (emittedWords_head h)
    have hpos := List.length_pos_iff.mpr hne
    have hle := strip0_length_le (hex16 w)
    rw [hex16_length] at hle
    rw [List.flatMap_cons, strip0_append_of_ne_nil hne]
    simp
    omega

/-- A rendered string has as many 16-digit chunks as words were emitted. -/
theorem hexrender_chunkCount (r : RenderRule) (v : Value) :
    ((hexrender r v).length + 15) / 16 = (emittedWords r v).length := by
  have hbounds := hexrender_length_bounds r v
  omega

theorem hexrender_eq_nil_iff (r : RenderRule) (v : Value) : hexrender r v = [] ↔ v = zeroV v.length := by
  have hbounds := hexrender_length_bounds r v
  rw [← emittedWords_eq_nil_iff r, ← List.length_eq_zero_iff, ← List.length_eq_zero_iff]
  omega

theorem hexrender_length_le (r : RenderRule) (v : Value) : (hexrender r v).length ≤ 16 * v.length :=
  (strip0_length_le _).trans (renderLoop_length_le r false v)

theorem hexrender_digit (h : c ∈ hexrender r v) : ∃ d : BitVec 4, c = hexchar d :=
  renderLoop_digit (mem_strip0 h)

theorem hexrender_all_isHex (r : RenderRule) (v : Value) : (hexrender r v).all isHex = true := by
  refine List.all_eq_true.mpr fun c hc => ?_
  obtain ⟨d, rfl⟩ := hexrender_digit hc
  exact isHex_hexchar d

/-- The codes of the lowercase digits. -/
theorem hexchar_code (d : BitVec 4) :
    (0x30 ≤ (hexchar d).toNat ∧ (hexchar d).toNat ≤ 0x39) ∨ (0x61 ≤ (hexchar d).toNat ∧ (hexchar d).toNat ≤ 0x66) := by
  revert d
  decide

/-- The array of a number below 2^64 renders as its one word does. -/
theorem hexrender_words_toNat (r : RenderRule) (n : Nat) (w : Word) :
    hexrender r (words (n + 1) w.toNat) = hexrender r [w] := by
  have hwords : words (n + 1) w.toNat = zeroV n ++ [w] := by
    simpa [zeroV] using words_val_of_length_le (n := n + 1) (v := [w]) (by simp)
  rw [hwords, hexrender_zeroV_append]

/-- Settles O42: by the number of emitted words, the digits of the loop, and the strip at its end. -/
theorem renderedForm : Obligations.RenderedForm := by
  rintro r n v rfl
  refine ⟨hexrender_eq_nil_iff r v, strip0_head _, fun c hc => ?_, fun hne => ⟨?_, hexrender_length_le r v⟩, ?_⟩
  · obtain ⟨d, rfl⟩ := hexrender_digit hc
    exact hexchar_code d
  · exact List.length_pos_iff.mpr (mt (hexrender_eq_nil_iff r v).mp hne)
  · refine (hexrender_words_toNat r _ 0x123#64).trans ?_
    cases r <;> decide

/-! ## The number a rendered string denotes (R115) -/

@[simp] theorem digitsVal_flatMap_hex16 (v : Value) : digitsVal (v.flatMap hex16) = val v := by
  obtain ⟨-, hval⟩ := renderLoop_seen v
  rwa [renderLoop_skipLeadingZero_seen] at hval

theorem digitsVal_hexrender (r : RenderRule) (v : Value) : digitsVal (hexrender r v) = val (emittedWords r v) := by
  rw [hexrender_eq, digitsVal_strip0, digitsVal_flatMap_hex16]

/-- The zero words that SKIP_LEADING_ZERO leaves out do not count. -/
theorem val_emittedWords_skipLeadingZero (v : Value) : val (emittedWords .skipLeadingZero v) = val v := by
  induction v with
  | nil => rfl
  | cons w ws ih =>
    by_cases hw : w = 0#64
    · simpa [emittedWords, hw] using ih
    · simp [emittedWords, hw]

theorem digitsVal_hexrender_skipLeadingZero (v : Value) : digitsVal (hexrender .skipLeadingZero v) = val v := by
  rw [digitsVal_hexrender, val_emittedWords_skipLeadingZero]

/-- Of zero words followed by a block of nonzero words, SKIP_ALL_ZERO emits the block. -/
theorem emittedWords_skipAllZero_block (hb : ∀ w ∈ b, w ≠ 0#64) : emittedWords .skipAllZero (zeroV k ++ b) = b := by
  rw [emittedWords_zeroV_append, emittedWords, List.filter_eq_self]
  simpa using hb

/-- SKIP_ALL_ZERO leaves the value as it is exactly when the nonzero words stand at the low end. -/
theorem val_emittedWords_skipAllZero_iff (v : Value) :
    val (emittedWords .skipAllZero v) = val v ↔ ∃ (k : Nat) (b : Value), v = zeroV k ++ b ∧ ∀ w ∈ b, w ≠ 0#64 := by
  constructor
  · intro h
    have hwords := words_val_of_length_le (n := v.length) (v := emittedWords .skipAllZero v) (List.length_filter_le _ v)
    rw [h, words_val] at hwords
    exact ⟨_, _, hwords, fun w => ne_zero_of_mem_skipAllZero⟩
  · rintro ⟨k, b, rfl, hb⟩
    rw [emittedWords_skipAllZero_block hb]
    exact (val_replicate_zero_append k b).symm

/-- The nonzero words stand at the low end exactly when each word after a nonzero one is nonzero. -/
theorem zeroV_append_block_iff_pairwise (v : Value) :
    (∃ (k : Nat) (b : Value), v = zeroV k ++ b ∧ ∀ w ∈ b, w ≠ 0#64)
      ↔ v.Pairwise fun x y => x ≠ 0#64 → y ≠ 0#64 := by
  constructor
  · rintro ⟨k, b, rfl, hb⟩
    refine List.pairwise_append.mpr ⟨List.pairwise_replicate.mpr (.inr id), ?_, ?_⟩
    · exact List.pairwise_of_forall_mem_list fun _ _ y hy _ => hb y hy
    · exact fun x hx _ _ hne => absurd (List.eq_of_mem_replicate hx) hne
  · intro h
    induction v with
    | nil => exact ⟨0, [], rfl, by simp⟩
    | cons w ws ih =>
      obtain ⟨hw, hws⟩ := List.pairwise_cons.mp h
      by_cases hz : w = 0#64
      · obtain ⟨k, b, rfl, hb⟩ := ih hws
        exact ⟨k + 1, b, by simp [hz, zeroV, List.replicate_succ], hb⟩
      · refine ⟨0, w :: ws, rfl, ?_⟩
        rintro x (_ | ⟨_, hx⟩)
        · exact hz
        · exact hw x hx hz

theorem pairwise_iff_getD (v : Value) :
    (v.Pairwise fun x y => x ≠ 0#64 → y ≠ 0#64) ↔
      ∀ i j, i < j → j < v.length → v.getD i 0#64 ≠ 0#64 → v.getD j 0#64 ≠ 0#64 := by
  rw [List.pairwise_iff_getElem]
  constructor
  · intro h i j hij hj
    have hi : i < v.length := hij.trans hj
    rw [List.getD_eq_getElem _ _ hi, List.getD_eq_getElem _ _ hj]
    exact h i j hi hj hij
  · intro h i j hi hj hij
    rw [← List.getD_eq_getElem _ 0#64 hi, ← List.getD_eq_getElem _ 0#64 hj]
    exact h i j hij hj

/-- Settles O43: a rendered string denotes the value of its emitted words. -/
theorem renderedValue : Obligations.RenderedValue := by
  refine ⟨fun v => ⟨digitsVal_hexrender_skipLeadingZero v, digitsVal_hexrender _ v, ?_⟩, by decide, by decide, by decide,
    by decide⟩
  rw [digitsVal_hexrender, val_emittedWords_skipAllZero_iff, zeroV_append_block_iff_pairwise, pairwise_iff_getD]

/-! ## The serial encoder (R116) -/

/-- Leading '0' characters suppressed, unless a digit has been emitted before. -/
def suppress (started : Bool) (s : Str) : Str := if started then s else strip0 s

@[simp] theorem suppress_true (s : Str) : suppress true s = s := rfl

@[simp] theorem suppress_false (s : Str) : suppress false s = strip0 s := rfl

theorem emitDigits_started (s : Str) : emitDigits true s = (s, true) := by
  induction s with
  | nil => rfl
  | cons c s ih => simp [emitDigits, ih]

theorem emitDigits_not_started (s : Str) : emitDigits false s = (strip0 s, !(strip0 s).isEmpty) := by
  induction s with
  | nil => rfl
  | cons c s ih => by_cases hc : c = 0x30#8 <;> simp [emitDigits, strip0, hc, ih, emitDigits_started]

theorem ne_zero_of_emitsWord_first (h : emitsWord r false w = true) : w ≠ 0#64 := by
  cases r <;> simpa [emitsWord] using h

/-- A word that is emitted gives its digits, and from then on a digit has been emitted. -/
theorem emitDigits_hex16 {started : Bool} (h : emitsWord r started w = true) :
    emitDigits started (hex16 w) = (suppress started (hex16 w), true) := by
  cases started with
  | true => exact emitDigits_started _
  | false =>
    simp [emitDigits_not_started, strip0_hex16_ne_nil (ne_zero_of_emitsWord_first h)]

theorem suppress_hex16_append {started : Bool} (h : emitsWord r started w = true) (t : Str) :
    suppress started (hex16 w ++ t) = suppress started (hex16 w) ++ t := by
  cases started with
  | true => rfl
  | false => exact strip0_append_of_ne_nil (strip0_hex16_ne_nil (ne_zero_of_emitsWord_first h)) t

/-- The serial encoder skips the words that the render loop does not emit. -/
theorem renderSerial_cons (r : RenderRule) (started : Bool) (w : Word) (ws : Value) :
    renderSerial r started (w :: ws)
      = if emitsWord r started w
        then (emitDigits started (hex16 w)).1 ++ renderSerial r (emitDigits started (hex16 w)).2 ws
        else renderSerial r started ws := by
  cases r <;> by_cases hw : w = 0#64 <;> cases started <;> simp [renderSerial, emitsWord, hw]

/-- Where the loop has seen a word exactly when the encoder has emitted a digit, the encoder gives the loop's string
with leading zeros suppressed. -/
theorem renderSerial_eq_suppress (r : RenderRule) (started : Bool) (v : Value) :
    renderSerial r started v = suppress started (renderLoop r started v) := by
  induction v generalizing started with
  | nil => cases started <;> rfl
  | cons w ws ih =>
    rw [renderSerial_cons, renderLoop]
    split
    · next h => rw [emitDigits_hex16 h, suppress_hex16_append h, ih, suppress_true]
    · exact ih started

/-- Settles O44: the encoder's suppression over the whole string is the strip at the end of the render function. -/
theorem serialEncoderIsTheRenderFunction : Obligations.SerialEncoderIsTheRenderFunction :=
  fun r v => renderSerial_eq_suppress r false v

end Sys2Proof.Machine
end

section
/-! Parsing a rendered string and rendering a parsed one, under the CONTRACT and the LITERAL rules (42_hex_encode.md
R117). -/

namespace Sys2Proof.Machine

variable {v : Value} {s t text : Str} {n : Nat}

/-! ## Strings of lowercase digits -/

/-- A string of lowercase hex digits. -/
def LowerDigits (s : Str) : Prop := ∀ c ∈ s, ∃ d : BitVec 4, c = hexchar d

theorem lowerDigits_concat {c : Code} : LowerDigits (s ++ [c]) ↔ LowerDigits s ∧ ∃ d : BitVec 4, c = hexchar d := by
  simp [LowerDigits, or_imp, forall_and]

theorem lowerDigits_hexrender (r : RenderRule) (v : Value) : LowerDigits (hexrender r v) := fun _ => hexrender_digit

/-- `lower` writes a digit as its value renders. -/
theorem lower_eq_hexchar {c : Code} (h : isHex c = true) : lower c = hexchar (BitVec.ofNat 4 (hexval c)) := by
  revert h
  revert c
  decide

theorem hexval_lower {c : Code} (h : isHex c = true) : hexval (lower c) = hexval c := by
  rw [lower_eq_hexchar h, hexval_hexchar, BitVec.toNat_ofNat, Nat.mod_eq_of_lt (hexval_lt h)]

theorem lowerDigits_map_lower (hx : ∀ c ∈ text, isHex c = true) : LowerDigits (text.map lower) := by
  intro c hc
  obtain ⟨d, hd, rfl⟩ := List.mem_map.mp hc
  exact ⟨_, lower_eq_hexchar (hx d hd)⟩

theorem digitsVal_map_lower (hx : ∀ c ∈ text, isHex c = true) : digitsVal (text.map lower) = digitsVal text := by
  induction text with
  | nil => rfl
  | cons c text ih =>
    obtain ⟨hc, htext⟩ := List.forall_mem_cons.mp hx
    simp [digitsVal, hexval_lower hc, ih htext]

/-! ## The number determines the string up to leading zeros -/

theorem strip0_eq_nil_of_digitsVal (hs : LowerDigits s) (h : digitsVal s = 0) : strip0 s = [] := by
  induction s with
  | nil => rfl
  | cons c s ih =>
    obtain ⟨⟨d, rfl⟩, htail⟩ := List.forall_mem_cons.mp hs
    obtain ⟨hd, hval⟩ : d.toNat = 0 ∧ digitsVal s = 0 := by simpa [digitsVal] using h
    have hzero : hexchar d = 0x30#8 := (hexchar_eq_zero d).mpr (BitVec.eq_of_toNat_eq hd)
    rw [strip0, if_pos hzero, ih htail hval]

/-- Strings of lowercase digits that denote one number differ in leading zeros alone. -/
theorem strip0_eq_of_digitsVal_eq (hs : LowerDigits s) (ht : LowerDigits t) (h : digitsVal s = digitsVal t) :
    strip0 s = strip0 t := by
  induction s using List.reverseRecOn generalizing t with
  | nil => exact (strip0_eq_nil_of_digitsVal ht h.symm).symm
  | append_singleton s c ih =>
    rcases List.eq_nil_or_concat' t with rfl | ⟨t, e, rfl⟩
    · exact strip0_eq_nil_of_digitsVal hs h
    · obtain ⟨hs', d, rfl⟩ := lowerDigits_concat.mp hs
      obtain ⟨ht', e, rfl⟩ := lowerDigits_concat.mp ht
      simp only [digitsVal_concat, hexval_hexchar] at h
      have hlast : d = e := BitVec.eq_of_toNat_eq (by omega)
      have hinit : digitsVal s = digitsVal t := by omega
      rw [strip0_append, strip0_append, ih hs' ht' hinit, hlast]

theorem strip0_strip0 (s : Str) : strip0 (strip0 s) = strip0 s := by
  rw [strip0_eq_dropWhile, strip0_eq_dropWhile, List.dropWhile_idempotent]

theorem strip0_hexrender (r : RenderRule) (v : Value) : strip0 (hexrender r v) = hexrender r v := strip0_strip0 _

/-! ## The CONTRACT rules (R117(a)) -/

theorem hexparse_hexrender_contract (v : Value) :
    hexparse v.length .fromEnd (hexrender .skipLeadingZero v) = .ok v := by
  rw [hexparse_fromEnd (hexrender_all_isHex _ v) (hexrender_length_le _ v), digitsVal_hexrender_skipLeadingZero,
    words_val]

/-- What a hex string parses to under FROM_END has the value that the string denotes. -/
theorem val_of_hexparse_fromEnd (hx : ∀ c ∈ text, isHex c = true) (hl : text.length ≤ 16 * n)
    (h : hexparse n .fromEnd text = .ok v) : val v = digitsVal text := by
  obtain ⟨hparse, hval, -⟩ := parsedValue n text _ _ hx hl rfl rfl
  cases hparse.symm.trans h
  exact hval

/-- Settles O45: both ways the number is kept, and it determines an array of N words and a string of lowercase digits
without leading zeros. -/
theorem contractRoundTrips : Obligations.ContractRoundTrips := by
  refine ⟨hexparse_hexrender_contract, fun n text v hx hl h => ?_⟩
  have hval : digitsVal (hexrender .skipLeadingZero v) = digitsVal (text.map lower) := by
    rw [digitsVal_hexrender_skipLeadingZero, val_of_hexparse_fromEnd hx hl h, digitsVal_map_lower hx]
  calc hexrender .skipLeadingZero v
      = strip0 (hexrender .skipLeadingZero v) := (strip0_hexrender _ v).symm
    _ = strip0 (text.map lower) :=
      strip0_eq_of_digitsVal_eq (lowerDigits_hexrender _ v) (lowerDigits_map_lower hx) hval

/-! ## The LITERAL rules (R117(b)) -/

/-- A rendered array parses back to its nonzero words, in reverse order at the low end. -/
theorem hexparse_hexrender_literal (v : Value) :
    hexparse v.length .fromStart (hexrender .skipAllZero v)
      = .ok (zeroV (v.length - (emittedWords .skipAllZero v).length) ++ (emittedWords .skipAllZero v).reverse) := by
  have hle : (emittedWords .skipAllZero v).length ≤ v.length := List.length_filter_le _ v
  rw [hexparse_fromStart (hexrender_all_isHex _ v) (hexrender_length_le _ v), hexrender_chunkCount,
    digitsVal_hexrender, words_val_of_length_le hle, reverseLow_append, zeroV]

/-- Settles O46: the array that comes back is its nonzero words in reverse after zero words. -/
theorem literalRoundTripExactlyWhen : Obligations.LiteralRoundTripExactlyWhen := by
  intro v
  rw [hexparse_hexrender_literal, ParseResult.ok.injEq]
  constructor
  · intro h
    have hnonzero : ∀ w ∈ (emittedWords .skipAllZero v).reverse, w ≠ 0#64 := fun w hw =>
      ne_zero_of_mem_skipAllZero (List.mem_reverse.mp hw)
    have hemit := emittedWords_skipAllZero_block (k := v.length - (emittedWords .skipAllZero v).length) hnonzero
    rw [h] at hemit
    exact ⟨_, _, h.symm, hnonzero, congrArg List.reverse hemit.symm⟩
  · rintro ⟨k, b, rfl, hb, hpal⟩
    rw [emittedWords_skipAllZero_block hb, hpal]
    simp

end Sys2Proof.Machine
end

section
/-! RENDER (42_hex_encode.md R113): its packet, its answer, and a run of it to the end with a host that takes every
beat. -/

namespace Sys2Proof.Machine

variable {s t : State} {ra : Reg}

/-! ## One move of RENDER (R113, R169) -/

theorem State.temps_of_exec {i : Instr} {tmp : Temps} (hp : s.phase = .exec i tmp) : s.temps = tmp := by
  simp [State.temps, hp]

/-- Settles O39: RENDER just taken has not sent its packet, and its frame is that of every command. -/
theorem renderSendsItsPacket : Obligations.RenderSendsItsPacket := by
  intro s ra hp
  have hexec := exec_render_sends (s := s) (ra := ra) (by simp [State.temps_of_exec hp])
  obtain ⟨hregs, hcontrol, hdin, hhin, -⟩ := (exec_move hexec).keeps
  exact ⟨_, hexec, rfl, ⟨.packetSent, rfl⟩, rfl, hregs, hdin (by simp), hhin (by simp), hcontrol⟩

/-- Settles O40: whether a beat is left on `hout` decides between the wait and a response alone. -/
theorem renderRespondsAfterItsLastBeat : Obligations.RenderRespondsAfterItsLastBeat := by
  intro s ra hp
  have htemps := State.temps_of_exec hp
  exact ⟨exec_render_waits htemps, fun hq => ⟨_, exec_render_ends htemps hq, ⟨rfl, rfl⟩, s.sendRsp_frame .ok 0#64⟩⟩

/-! ## Runs that do not stop -/

/-- `k` steps, each with a next state, lead from one state to another. -/
inductive Reaches : Nat → State → State → Prop
  | refl (s : State) : Reaches 0 s s
  | head {k : Nat} {s t u : State} (h : step s = .next t) (hrun : Reaches k t u) : Reaches (k + 1) s u

/-- Such steps are a run of the machine. -/
theorem Reaches.run_eq {k : Nat} (h : Reaches k s t) : Host.Core.run Sys2Proof.core k s = .next t := by
  induction h with
  | refl => rfl
  | @head k s t u hstep _ ih =>
    have hcore : Sys2Proof.core.step s = .next t := hstep
    simpa only [Host.Core.run, hcore] using ih

theorem Reaches.trans {j k : Nat} {u : State} (h : Reaches j s t) (h' : Reaches k t u) : Reaches (j + k) s u := by
  induction h with
  | refl => rwa [Nat.zero_add]
  | head hstep _ ih =>
    rw [Nat.add_right_comm]
    exact .head hstep (ih h')

/-! ## The steps of a RENDER (R160, R169) -/

/-- The packet of a register's string (R113). -/
def State.packetOf (s : State) (ra : Reg) : List HexBeat := sendHex s.cfg.lanes (hexrender s.cfg.renderRule (s.reg ra))

section Steps

variable {ts : List Turn}

/-- With an encoded RENDER first on `cmd`, a block step in IDLE takes it and produces its packet. -/
theorem step_takesRender {rest : List CmdWord} (hr : s.canRun) (hp : s.phase = .idle)
    (hq : s.cmdQ = encode (.render ra) :: rest) (hts : s.turns = .block :: ts) :
    step s = .next { s with
      cmdQ := rest
      phase := .exec (.render ra) .packetSent
      boot := .ready
      turns := ts
      houtQ := s.houtQ ++ s.packetOf ra } := by
  have hd : decode s.cfg.n (encode (.render ra)) = some (.render ra) :=
    (oneLegalEncodingPerCommand _ _ _).mpr ⟨rfl, rfl⟩
  calc step s = blockMove (s.withTurns ts) := step_blockTurn (by simp [State.blockTurn, hts])
    _ = runPhase (s.withTurns ts) := blockMove_run hr.1 hr.2
    _ = takeCommand (s.withTurns ts) := runPhase_idle hp
    _ = exec (.render ra) ((s.withTurns ts).beginCommand (.render ra) rest) := takeCommand_legal hq hd
    _ = _ := exec_render_sends (by simp)
    _ = _ := by rw [State.beginCommand_reg, State.withTurns_reg]; rfl

/-- With the last beat taken, a block step of RENDER answers (OK, 0). -/
theorem step_endsRender (hr : s.canRun) (hp : s.phase = .exec (.render ra) .packetSent) (hq : s.houtQ = [])
    (hts : s.turns = .block :: ts) : step s = .next ((s.withTurns ts).tick.sendRsp .ok 0#64) :=
  calc step s = blockMove (s.withTurns ts) := step_blockTurn (by simp [State.blockTurn, hts])
    _ = runPhase (s.withTurns ts) := blockMove_run hr.1 hr.2
    _ = exec (.render ra) (s.withTurns ts).tick := runPhase_exec hp
    _ = .next ((s.withTurns ts).tick.sendRsp .ok 0#64) := exec_render_ends (State.temps_of_exec hp) hq

theorem step_takesHout {b : HexBeat} {q : List HexBeat} (hr : s.canRun) (hq : s.houtQ = b :: q)
    (hts : s.turns = .host .takeHout :: ts) :
    step s = .next { s with turns := ts, houtQ := q, houtLog := s.houtLog ++ [.beat b] } :=
  calc step s = .next (s.withTurns ts).takeHout := step_host hts
    _ = _ := congrArg _ (State.takeHout_cons (State.running_of_canRun hr.1 hr.2) hq)

theorem step_takesRsp {b : RspBeat} {q : List RspBeat} (hr : s.canRun) (hq : s.rspQ = b :: q)
    (hts : s.turns = .host .takeRsp :: ts) :
    step s = .next { s with turns := ts, rspQ := q, rspLog := s.rspLog ++ [b], phase := .idle } :=
  calc step s = .next (s.withTurns ts).takeRsp := step_host hts
    _ = _ := congrArg _ (State.takeRsp_cons (State.running_of_canRun hr.1 hr.2) hq)

/-- A host that takes as many beats as are offered, one step each, has them all, in order. -/
theorem reaches_houtQ_taken {q : List HexBeat} (hr : s.canRun) (hq : s.houtQ = q)
    (hts : s.turns = List.replicate q.length (.host .takeHout) ++ ts) :
    Reaches q.length s { s with turns := ts, houtQ := [], houtLog := s.houtLog ++ q.map .beat } := by
  induction q generalizing s with
  | nil =>
    have hsame : { s with turns := ts, houtQ := [], houtLog := s.houtLog ++ [].map .beat } = s := by
      cases s
      simp_all
    rw [hsame]
    exact .refl s
  | cons b q ih =>
    refine .head (step_takesHout hr hq hts) ?_
    simpa using ih (s := { s with turns := _, houtQ := q, houtLog := s.houtLog ++ [.beat b] }) hr rfl rfl

end Steps

/-! ## A whole RENDER (R113, R171, R172) -/

/-- The state after a RENDER of `V[ra]` whose packet and response the host has taken, with nothing left to do. -/
def State.rendered (s : State) (ra : Reg) : State :=
  { s with
    phase := .idle
    cmdQ := []
    rspQ := []
    houtQ := []
    boot := .ready
    turns := []
    rspLog := s.rspLog ++ [⟨.ok, 0#64⟩]
    houtLog := s.houtLog ++ (s.packetOf ra).map .beat }

/-- From IDLE the block produces the packet, the host takes it, the block answers, and the host takes the response. -/
theorem reaches_rendered (hs : s.Inv) (hr : s.canRun) (hp : s.phase = .idle) (hq : s.cmdQ = [encode (.render ra)])
    (hts : s.turns = .block :: (List.replicate (s.packetOf ra).length (.host .takeHout)
      ++ [.block, .host .takeRsp])) :
    Reaches ((s.packetOf ra).length + 3) s (s.rendered ra) := by
  obtain ⟨hrsp, hout⟩ := (phaseFits_idle hp).mp hs.phase
  have hanswer : s.rspQ ++ [⟨.ok, 0#64⟩] = [⟨.ok, 0#64⟩] := by rw [hrsp, List.nil_append]
  have hready (t : State) (hrst : t.rst = s.rst) (hboot : t.boot = .ready) : t.canRun :=
    ⟨hrst.trans hr.1, by simp [hboot]⟩
  have hsend := step_takesRender hr hp hq hts
  rw [hout, List.nil_append] at hsend
  exact .head hsend <| .trans (reaches_houtQ_taken (hready _ rfl rfl) rfl rfl) <|
    .head (step_endsRender (hready _ rfl rfl) rfl rfl rfl) <|
    .head (step_takesRsp (hready _ rfl rfl) hanswer rfl) <| .refl _

/-- With nothing offered, no packet of the host's record is open. -/
theorem State.Inv.packetOpen_of_idle (hs : s.Inv) (hp : s.phase = .idle) : packetOpen s.houtLog = false := by
  obtain ⟨-, hout⟩ := (phaseFits_idle hp).mp hs.phase
  obtain ⟨-, -, -, -, -, hwhole⟩ := hs
  simpa [hout] using hwhole

/-- Settles O41: the final state of the run is `State.rendered`, whose new packet is read whole. -/
theorem renderRunsToItsEnd : Obligations.RenderRunsToItsEnd := by
  rintro s ra k hs hr hp hq rfl hts
  refine ⟨s.rendered ra, (reaches_rendered hs hr hp hq hts).run_eq, rfl, rfl, rfl, rfl, rfl, rfl, rfl,
    fun r _ => State.reg_congr rfl rfl rfl rfl r, fun hdin hhin => ?_⟩
  have hended : runEnded (s.rendered ra) = true := by simp [runEnded, State.rendered, hdin, hhin]
  have hpackets : packets (s.rendered ra).houtLog
      = packets s.houtLog ++ [hexrender s.cfg.renderRule (s.reg ra)] := by
    rw [State.rendered, packets_append (hs.packetOpen_of_idle hp), State.packetOf, packets_sendHex]
  rw [State.observe, if_pos hended, hpackets]
  rfl

end Sys2Proof.Machine
end

section
/-! The word loops of ADD and SUB (43_arithmetic.md R122, R132) are one loop over two functions of a word step: its
result word and its outgoing bit. What holds of either command word by word is proved of that loop. -/

namespace Sys2Proof.Machine

variable {word : Word → Word → Bool → Word} {out out' : Word → Word → Bool → Bool} {a b : Value} {i : Nat}

/-- From the least significant word to the most significant, with an incoming bit that is 0 at the start. -/
def wordLoop (word : Word → Word → Bool → Word) (out : Word → Word → Bool → Bool) : Value → Value → LoopResult
  | x :: xs, y :: ys =>
    let low := wordLoop word out xs ys
    ⟨word x y low.out :: low.value, out x y low.out⟩
  | [], _ => ⟨[], false⟩
  | _ :: _, [] => ⟨[], false⟩

/-- The bit that leaves word `i` for the word above it; 0 from below the lowest word. -/
def bitOut (word : Word → Word → Bool → Word) (out : Word → Word → Bool → Bool) (a b : Value) (i : Nat) : Bool :=
  (wordLoop word out (a.drop i) (b.drop i)).out

theorem LoopResult.eq_of_parts {p q : LoopResult} (hvalue : p.value = q.value) (hout : p.out = q.out) : p = q := by
  cases p
  cases q
  simp_all

theorem wordLoop_cons (x y : Word) (xs ys : Value) :
    wordLoop word out (x :: xs) (y :: ys)
      = ⟨word x y (wordLoop word out xs ys).out :: (wordLoop word out xs ys).value,
          out x y (wordLoop word out xs ys).out⟩ := rfl

@[simp] theorem bitOut_cons (x y : Word) (xs ys : Value) (i : Nat) :
    bitOut word out (x :: xs) (y :: ys) (i + 1) = bitOut word out xs ys i := rfl

theorem bitOut_zero : bitOut word out a b 0 = (wordLoop word out a b).out := rfl

/-- Word by word, with each step's incoming bit the outgoing one of the step below. -/
theorem wordLoop_step (h : a.length = b.length) (hi : i < a.length) :
    (wordLoop word out a b).value.getD i 0#64
        = word (a.getD i 0#64) (b.getD i 0#64) (bitOut word out a b (i + 1))
      ∧ bitOut word out a b i = out (a.getD i 0#64) (b.getD i 0#64) (bitOut word out a b (i + 1)) := by
  induction a generalizing b i with
  | nil => simp at hi
  | cons x xs ih =>
    cases b with
    | nil => simp at h
    | cons y ys =>
      cases i with
      | zero => exact ⟨rfl, rfl⟩
      | succ i => exact ih (by simpa using h) (by simpa using hi)

theorem bitOut_length : bitOut word out a b a.length = false := by
  simp [bitOut, wordLoop]

/-- The loop reads its two arrays alike when the word step does. -/
theorem wordLoop_comm (hword : ∀ x y c, word x y c = word y x c) (hout : ∀ x y c, out x y c = out y x c)
    (h : a.length = b.length) : wordLoop word out a b = wordLoop word out b a := by
  induction a generalizing b with
  | nil =>
    obtain rfl : b = [] := by simpa using h.symm
    rfl
  | cons x xs ih =>
    cases b with
    | nil => simp at h
    | cons y ys => rw [wordLoop_cons, wordLoop_cons, ih (by simpa using h), hword x y, hout x y]

section Rules

variable (hinj : ∀ x y c c', word x y c = word x y c' → c = c')
include hinj

/-- When a result word tells the bit that came in, the values of two loops that differ in the rule for the outgoing bit
agree exactly when their loops on the words below the topmost agree in value and bit. -/
theorem wordLoop_cons_value_eq_iff (x y : Word) (xs ys : Value) :
    (wordLoop word out (x :: xs) (y :: ys)).value = (wordLoop word out' (x :: xs) (y :: ys)).value
      ↔ wordLoop word out xs ys = wordLoop word out' xs ys := by
  refine ⟨fun h => ?_, fun h => by rw [wordLoop_cons, wordLoop_cons, h]⟩
  obtain ⟨hw, hv⟩ := List.cons.inj h
  exact LoopResult.eq_of_parts hv (hinj _ _ _ _ hw)

/-- Two such loops agree in value and bit exactly when the rules agree on every step of the first. -/
theorem wordLoop_eq_iff (h : a.length = b.length) :
    wordLoop word out a b = wordLoop word out' a b ↔
      ∀ i < a.length, out (a.getD i 0#64) (b.getD i 0#64) (bitOut word out a b (i + 1))
        = out' (a.getD i 0#64) (b.getD i 0#64) (bitOut word out a b (i + 1)) := by
  induction a generalizing b with
  | nil => simp [wordLoop]
  | cons x xs ih =>
    cases b with
    | nil => simp at h
    | cons y ys =>
      rw [List.length_cons, Nat.forall_lt_succ_left']
      simp only [List.getD_cons_zero, List.getD_cons_succ, bitOut_cons, bitOut_zero]
      rw [← ih (by simpa using h)]
      constructor
      · intro heq
        have hlow := (wordLoop_cons_value_eq_iff hinj x y xs ys).mp (congrArg _ heq)
        have hout := congrArg LoopResult.out heq
        rw [wordLoop_cons, wordLoop_cons, ← hlow] at hout
        exact ⟨hout, hlow⟩
      · rintro ⟨hout, hlow⟩
        rw [wordLoop_cons, wordLoop_cons, ← hlow, hout]

/-- Their values agree exactly when the rules agree on every step but the topmost, whose bit goes nowhere. -/
theorem wordLoop_value_eq_iff (h : a.length = b.length) :
    (wordLoop word out a b).value = (wordLoop word out' a b).value ↔
      ∀ i, 1 ≤ i → i < a.length → out (a.getD i 0#64) (b.getD i 0#64) (bitOut word out a b (i + 1))
        = out' (a.getD i 0#64) (b.getD i 0#64) (bitOut word out a b (i + 1)) := by
  cases a with
  | nil => simp [wordLoop]
  | cons x xs =>
    cases b with
    | nil => simp at h
    | cons y ys =>
      rw [wordLoop_cons_value_eq_iff hinj, wordLoop_eq_iff hinj (by simpa using h)]
      constructor
      · intro hsteps i hi hlt
        obtain ⟨j, rfl⟩ := Nat.exists_eq_add_of_le' hi
        exact hsteps j (by simpa using hlt)
      · exact fun hsteps j hlt => hsteps (j + 1) (Nat.le_add_left 1 j) (by simpa using hlt)

end Rules

end Sys2Proof.Machine
end

section
/-! ADD under the two CARRY_RULEs (43_arithmetic.md R121 to R127): the exact rule gives the sum of the numbers, and the
default rule gives it exactly when its carries but the topmost are the exact ones. -/

namespace Sys2Proof.Machine

variable {a b : Value}

theorem bitVal_decide (p : Prop) [Decidable p] : bitVal (decide p) = if p then 1 else 0 := by simp [bitVal]

theorem eq_max64_iff (w : Word) : w = max64 ↔ w.toNat = 2 ^ 64 - 1 := by
  rw [← BitVec.toNat_inj]
  rfl

/-! ## One step (R121) -/

theorem bitWord_injective : ∀ c c' : Bool, (if c then 1#64 else 0#64) = (if c' then 1#64 else 0#64) → c = c' := by
  decide

theorem addWord_eq (x y : Word) (c : Bool) : addWord x y c = x + y + (if c then 1#64 else 0#64) := by
  apply BitVec.eq_of_toNat_eq
  cases c <;> simp [addSum, bitVal]

/-- The result word tells the incoming carry. -/
theorem addWord_injective (x y : Word) (c c' : Bool) (h : addWord x y c = addWord x y c') : c = c' := by
  rw [addWord_eq, addWord_eq, BitVec.add_right_inj] at h
  exact bitWord_injective c c' h

/-- The outgoing carry of a step of ADD, by CARRY_RULE. -/
def addOut (r : CarryRule) (x y : Word) (c : Bool) : Bool := carryOut r (addSum x y c) (addWord x y c)

theorem addOut_sumEqMax (x y : Word) (c : Bool) :
    addOut .sumEqMax x y c = decide (addSum x y c % 2 ^ 64 = 2 ^ 64 - 1) := by
  rw [← addWord_toNat]
  exact decide_eq_decide.mpr (eq_max64_iff _)

theorem addOut_exactCarry (x y : Word) (c : Bool) : addOut .exactCarry x y c = decide (2 ^ 64 ≤ addSum x y c) := rfl

theorem addOut_comm (r : CarryRule) (x y : Word) (c : Bool) : addOut r x y c = addOut r y x c := by
  rw [addOut, addOut, addSum_comm, addWord_comm]

/-- R126(d): the steps on which the two rules give one carry. -/
theorem addOut_agree_iff (x y : Word) (c : Bool) :
    addOut .sumEqMax x y c = addOut .exactCarry x y c ↔
      (addSum x y c < 2 ^ 64 ∧ addSum x y c % 2 ^ 64 ≠ 2 ^ 64 - 1) ∨ addSum x y c = 2 ^ 65 - 1 := by
  have hlt := addSum_lt x y c
  rw [addOut_sumEqMax, addOut_exactCarry, decide_eq_decide]
  omega

/-- Settles O54: a step's sum is below 2^65, and each rule's carry is a bound on it. -/
theorem sumEqMaxAgainstExactCarry : Obligations.SumEqMaxAgainstExactCarry := by
  rintro x y c t s cm ce rfl rfl rfl rfl
  have hlt := addSum_lt x y c
  have hmax := addOut_sumEqMax x y c
  have hexact := addOut_exactCarry x y c
  rw [addOut] at hmax hexact
  refine ⟨addOut_agree_iff x y c, ?_⟩
  rw [hmax, hexact, decide_eq_true_iff, decide_eq_true_iff, decide_eq_false_iff_not, decide_eq_false_iff_not]
  omega

/-! ## The loop (R122) -/

theorem addLoop_eq_wordLoop (r : CarryRule) (a b : Value) : addLoop r a b = wordLoop addWord (addOut r) a b := by
  induction a generalizing b with
  | nil => rfl
  | cons x xs ih =>
    cases b with
    | nil => rfl
    | cons y ys => rw [addLoop, wordLoop_cons, ih, addOut]

theorem addValue_eq_wordLoop (r : CarryRule) (a b : Value) :
    addValue r a b = (wordLoop addWord (addOut r) a b).value := by
  rw [addValue, addLoop_eq_wordLoop]

theorem addValue_length (r : CarryRule) (h : a.length = b.length) : (addValue r a b).length = a.length :=
  addLoop_length r a b h

/-- R126(h), and R124 for the exact rule. -/
theorem addValue_comm (r : CarryRule) (h : a.length = b.length) : addValue r a b = addValue r b a := by
  rw [addValue_eq_wordLoop, addValue_eq_wordLoop, wordLoop_comm addWord_comm (addOut_comm r) h]

/-! ## EXACT_CARRY (R124) -/

theorem val_addValue_exactCarry (h : a.length = b.length) :
    val (addValue .exactCarry a b) = (val a + val b) % 2 ^ (64 * a.length) := by
  have hlt := val_lt (addLoop .exactCarry a b).value
  rw [addLoop_length _ a b h] at hlt
  rw [addValue, ← val_addLoop_exact a b h, Nat.add_mul_mod_self_right, Nat.mod_eq_of_lt hlt]

/-- Settles O51: arrays of one length are equal when their numbers are, and the sum's is exact modulo 2^(64N). -/
theorem exactAddition : Obligations.ExactAddition := by
  rintro _ a b c rfl hb hc
  have hab := val_addValue_exactCarry hb.symm
  have hlab := addValue_length .exactCarry hb.symm
  have hlbc := addValue_length .exactCarry (hb.trans hc.symm)
  refine ⟨hab, val_injective ?_ ?_, val_injective ?_ ?_, addValue_comm _ hb.symm, val_injective ?_ ?_⟩
  · rw [hlab, words_length]
  · rw [hab, val_words]
  · exact addValue_length _ (zeroV_length _).symm
  · rw [val_addValue_exactCarry (zeroV_length _).symm, val_zeroV, Nat.add_zero, Nat.mod_eq_of_lt (val_lt a)]
  · rw [addValue_length _ (hlab.trans hc.symm), addValue_length _ (hb.symm.trans hlbc.symm), hlab]
  · rw [val_addValue_exactCarry (hlab.trans hc.symm), val_addValue_exactCarry (hb.symm.trans hlbc.symm), hlab, hab,
      val_addValue_exactCarry (hb.trans hc.symm), hb, Nat.mod_add_mod, Nat.add_mod_mod, Nat.add_assoc]

/-! ## SUM_EQ_MAX (R126) -/

/-- Settles O55: the sum is exact when it is that of the exact rule, which asks for equal carries below the top. -/
theorem sumEqMaxExactIff : Obligations.SumEqMaxExactIff := by
  rintro _ a b rfl hb
  have hvalue : val (addValue .sumEqMax a b) = val (addValue .exactCarry a b)
      ↔ addValue .sumEqMax a b = addValue .exactCarry a b :=
    ⟨val_injective (by rw [addValue_length _ hb.symm, addValue_length _ hb.symm]), congrArg val⟩
  rw [← val_addValue_exactCarry hb.symm, hvalue, addValue_eq_wordLoop, addValue_eq_wordLoop,
    wordLoop_value_eq_iff addWord_injective hb.symm]
  simp only [addOut_agree_iff, addLoop_eq_wordLoop, bitOut]
  exact ⟨fun h i t hi hlt ht => ht ▸ h i hi hlt, fun h i hi hlt => h i _ hi hlt rfl⟩

/-- The carry into the word above word `i` is 1 exactly when word `i` of the sum is MAX64 (R126(b)). -/
theorem bitOut_sumEqMax {i : Nat} (h : a.length = b.length) (hi : i ≤ a.length) :
    bitOut addWord (addOut .sumEqMax) a b i
      = decide (i < a.length ∧ (addValue .sumEqMax a b).getD i 0#64 = max64) := by
  rcases Nat.lt_or_eq_of_le hi with hlt | rfl
  · obtain ⟨hword, hbit⟩ := wordLoop_step (word := addWord) (out := addOut .sumEqMax) h hlt
    rw [hbit, addValue_eq_wordLoop, hword]
    simp [addOut, carryOut, hlt]
  · simp [bitOut_length]

/-- Settles O53: the loop word by word, and one word has no step below the topmost. -/
theorem sumEqMaxAddition : Obligations.SumEqMaxAddition := by
  rintro _ a b _ rfl hb rfl
  refine ⟨fun i hi => ?_, fun hn => ?_, addValue_comm _ hb⟩
  · have hbit := bitOut_sumEqMax hb.symm hi
    obtain ⟨hword, -⟩ := wordLoop_step (word := addWord) (out := addOut .sumEqMax) hb.symm hi
    rw [← addValue_eq_wordLoop, addWord_eq, hbit] at hword
    simpa using hword
  · have hexact := (sumEqMaxExactIff a.length a b rfl hb).mpr fun i t hi hlt => absurd hlt (by omega)
    rwa [hn] at hexact

/-! ## The command (R121, R122, R125) -/

/-- Settles O49: the carries are those of the loop over the sources as they were, and the rest is the frame of every
command. -/
theorem addResult : Obligations.AddResult := by
  intro s rd ra rb ha hb
  have hexec := exec_add rd ra rb s
  have hlen := ha.trans hb.symm
  obtain ⟨hregs, hcontrol, hdin, hhin, hhout⟩ := (exec_move hexec).keeps
  refine ⟨_, fun i => bitVal (bitOut addWord (addOut s.cfg.carryRule) (s.reg ra) (s.reg rb) i), hexec,
    (CommandTakes.nothing (.add rd ra rb)).responded_setReg rd _, ?_, ?_, fun i hi => ?_, hregs,
    ⟨hdin (by simp), hhin (by simp), hhout (by simp)⟩, hcontrol⟩
  · simp [addValue_length _ hlen, ha]
  · beta_reduce
    rw [← ha, bitOut_length]
    rfl
  · obtain ⟨hword, hbit⟩ := wordLoop_step (word := addWord) (out := addOut s.cfg.carryRule) hlen (hi.trans_eq ha.symm)
    rw [← addValue_eq_wordLoop] at hword
    beta_reduce
    rw [hbit, State.sendRsp_word, State.word, State.reg_setReg_same, hword]
    refine ⟨addWord_toNat _ _ _, ?_⟩
    cases s.cfg.carryRule with
    | sumEqMax => rw [addOut_sumEqMax, bitVal_decide, addWord_toNat]
    | exactCarry => exact bitVal_decide _

end Sys2Proof.Machine
end

section
/-! SUB under the two BORROW_RULEs (43_arithmetic.md R131 to R135): the exact rule gives the difference of the numbers,
and the default rule gives it exactly when its borrows but the topmost are the exact ones. -/

namespace Sys2Proof.Machine

variable {a b : Value}

/-! ## One step (R131) -/

theorem subWord_eq (x y : Word) (c : Bool) : subWord x y c = x - y - (if c then 1#64 else 0#64) := by
  apply BitVec.eq_of_toNat_eq
  have hword := subWord_toNat x y c
  have hx := x.isLt
  have hy := y.isLt
  cases c <;> simp [subDiff, bitVal, BitVec.toNat_sub] at hword ⊢ <;> omega

/-- The result word tells the incoming borrow. -/
theorem subWord_injective (x y : Word) (c c' : Bool) (h : subWord x y c = subWord x y c') : c = c' := by
  rw [subWord_eq, subWord_eq, BitVec.sub_right_inj] at h
  exact bitWord_injective c c' h

/-- The outgoing borrow of a step of SUB, by BORROW_RULE. -/
def subOut (r : BorrowRule) (x y : Word) (c : Bool) : Bool := borrowOut r (subDiff x y c) (subWord x y c)

theorem subOut_topBit_word (x y : Word) (c : Bool) :
    subOut .topBit x y c = decide (2 ^ 63 ≤ (subWord x y c).toNat) := by
  rw [subOut, borrowOut, BitVec.msb_eq_decide]

theorem subOut_topBit (x y : Word) (c : Bool) :
    subOut .topBit x y c = decide (2 ^ 63 ≤ subDiff x y c % 2 ^ 64) := by
  rw [subOut_topBit_word, ← subWord_toNat, decide_eq_decide]
  omega

theorem subOut_exactBorrow (x y : Word) (c : Bool) : subOut .exactBorrow x y c = decide (subDiff x y c < 0) := rfl

/-- R134(c): the steps on which the two rules give one borrow. -/
theorem subOut_agree_iff (x y : Word) (c : Bool) :
    subOut .topBit x y c = subOut .exactBorrow x y c ↔ -2 ^ 63 ≤ subDiff x y c ∧ subDiff x y c ≤ 2 ^ 63 - 1 := by
  have hbounds := subDiff_bounds x y c
  rw [subOut_topBit, subOut_exactBorrow, decide_eq_decide]
  omega

/-- Settles O57: a step's difference lies between -2^64 and 2^64 - 1, and each rule's borrow is a bound on it. -/
theorem topBitAgainstExactBorrow : Obligations.TopBitAgainstExactBorrow := by
  rintro x y c t d bt be rfl rfl rfl rfl
  have hbounds := subDiff_bounds x y c
  have htop := subOut_topBit x y c
  have hexact := subOut_exactBorrow x y c
  rw [subOut] at htop hexact
  refine ⟨subOut_agree_iff x y c, ?_⟩
  rw [htop, hexact, decide_eq_true_iff, decide_eq_true_iff, decide_eq_false_iff_not, decide_eq_false_iff_not]
  omega

/-! ## The loop (R132) -/

theorem subLoop_eq_wordLoop (r : BorrowRule) (a b : Value) : subLoop r a b = wordLoop subWord (subOut r) a b := by
  induction a generalizing b with
  | nil => rfl
  | cons x xs ih =>
    cases b with
    | nil => rfl
    | cons y ys => rw [subLoop, wordLoop_cons, ih, subOut]

theorem subValue_eq_wordLoop (r : BorrowRule) (a b : Value) :
    subValue r a b = (wordLoop subWord (subOut r) a b).value := by
  rw [subValue, subLoop_eq_wordLoop]

theorem subValue_length (r : BorrowRule) (h : a.length = b.length) : (subValue r a b).length = a.length :=
  subLoop_length r a b h

/-- A difference of equal words with no borrow is 0 and leaves no borrow, under either rule (R135). -/
theorem subLoop_self (r : BorrowRule) (a : Value) : subLoop r a a = ⟨zeroV a.length, false⟩ := by
  induction a with
  | nil => rfl
  | cons x xs ih =>
    have hdiff : subDiff x x false = 0 := by simp [subDiff, bitVal]
    have hword : subWord x x false = 0#64 := by simp [subWord, hdiff]
    rw [subLoop, ih, hdiff, hword]
    cases r <;> rfl

theorem subValue_self (r : BorrowRule) (a : Value) : subValue r a a = zeroV a.length := by
  rw [subValue, subLoop_self]

/-! ## EXACT_BORROW (R133) -/

theorem val_subValue_exactBorrow (h : a.length = b.length) :
    (val (subValue .exactBorrow a b) : Int) = ((val a : Int) - val b) % 2 ^ (64 * a.length) := by
  have hlt := val_lt (subLoop .exactBorrow a b).value
  rw [subLoop_length _ a b h] at hlt
  rw [subValue, ← val_subLoop_exact a b h, Int.sub_mul_emod_self_right,
    Int.emod_eq_of_lt (Int.natCast_nonneg _) (by exact_mod_cast hlt)]

/-- Settles O52: arrays of one length are equal when their numbers are, and the difference's is exact modulo
2^(64N). -/
theorem exactSubtraction : Obligations.ExactSubtraction := by
  rintro _ a b rfl hb
  have hab := val_subValue_exactBorrow hb.symm
  have hlsum := addValue_length .exactCarry hb.symm
  have ha : (val a : Int) < 2 ^ (64 * a.length) := by exact_mod_cast val_lt a
  have hb' : (val b : Int) < 2 ^ (64 * a.length) := by exact_mod_cast hb ▸ val_lt b
  refine ⟨hab, val_injective ?_ ?_, subValue_self _ a, val_injective ?_ ?_, fun hlt => ?_⟩
  · exact subValue_length _ (zeroV_length _).symm
  · zify
    rw [val_subValue_exactBorrow (zeroV_length _).symm, val_zeroV, Nat.cast_zero, sub_zero,
      Int.emod_eq_of_lt (Int.natCast_nonneg _) ha]
  · rw [subValue_length _ (hlsum.trans hb.symm), hlsum]
  · zify
    rw [val_subValue_exactBorrow (hlsum.trans hb.symm), hlsum, val_addValue_exactCarry hb.symm]
    push_cast
    rw [Int.emod_sub_emod, add_sub_cancel_right, Int.emod_eq_of_lt (Int.natCast_nonneg _) ha]
  · rw [← Int.add_emod_right, Int.emod_eq_of_lt (by omega) (by omega)] at hab
    have hle : val b ≤ 2 ^ (64 * a.length) + val a := Nat.le_add_right_of_le (hb ▸ val_lt b).le
    zify [hle]
    rw [hab]
    ring

/-! ## TOP_BIT (R134) -/

/-- Settles O58: the difference is exact when it is that of the exact rule, which asks for equal borrows below the
top. -/
theorem topBitExactIff : Obligations.TopBitExactIff := by
  rintro _ a b rfl hb
  have hvalue : (val (subValue .topBit a b) : Int) = val (subValue .exactBorrow a b)
      ↔ subValue .topBit a b = subValue .exactBorrow a b :=
    Nat.cast_inj.trans
      ⟨val_injective (by rw [subValue_length _ hb.symm, subValue_length _ hb.symm]), congrArg val⟩
  rw [← val_subValue_exactBorrow hb.symm, hvalue, subValue_eq_wordLoop, subValue_eq_wordLoop,
    wordLoop_value_eq_iff subWord_injective hb.symm]
  simp only [subOut_agree_iff, subLoop_eq_wordLoop, bitOut]
  exact ⟨fun h i t hi hlt ht => ht ▸ h i hi hlt, fun h i hi hlt => h i _ hi hlt rfl⟩

/-- The borrow into the word above word `i` is bit 63 of word `i` of the difference (R131). -/
theorem bitOut_topBit {i : Nat} (h : a.length = b.length) (hi : i ≤ a.length) :
    bitOut subWord (subOut .topBit) a b i
      = decide (i < a.length ∧ ((subValue .topBit a b).getD i 0#64).msb = true) := by
  rcases Nat.lt_or_eq_of_le hi with hlt | rfl
  · obtain ⟨hword, hbit⟩ := wordLoop_step (word := subWord) (out := subOut .topBit) h hlt
    rw [hbit, subValue_eq_wordLoop, hword]
    simp [subOut, borrowOut, hlt]
  · simp [bitOut_length]

/-- Settles O56: the loop word by word, and one word has no step below the topmost. -/
theorem topBitSubtraction : Obligations.TopBitSubtraction := by
  rintro _ a b _ rfl hb rfl
  refine ⟨fun i hi => ?_, fun hn => ?_⟩
  · have hbit := bitOut_topBit hb.symm hi
    obtain ⟨hword, -⟩ := wordLoop_step (word := subWord) (out := subOut .topBit) hb.symm hi
    rw [← subValue_eq_wordLoop, subWord_eq, hbit] at hword
    simpa using hword
  · have hexact := (topBitExactIff a.length a b rfl hb).mpr fun i t hi hlt => absurd hlt (by omega)
    rwa [hn] at hexact

/-! ## The command (R131, R132, R125) -/

/-- Settles O50: the borrows are those of the loop over the sources as they were, and the rest is the frame of every
command. -/
theorem subResult : Obligations.SubResult := by
  intro s rd ra rb ha hb
  have hexec := exec_sub rd ra rb s
  have hlen := ha.trans hb.symm
  obtain ⟨hregs, hcontrol, hdin, hhin, hhout⟩ := (exec_move hexec).keeps
  refine ⟨_, fun i => bitVal (bitOut subWord (subOut s.cfg.borrowRule) (s.reg ra) (s.reg rb) i), hexec,
    (CommandTakes.nothing (.sub rd ra rb)).responded_setReg rd _, ?_, ?_, fun i hi => ?_, hregs,
    ⟨hdin (by simp), hhin (by simp), hhout (by simp)⟩, hcontrol⟩
  · simp [subValue_length _ hlen, ha]
  · beta_reduce
    rw [← ha, bitOut_length]
    rfl
  · obtain ⟨hword, hbit⟩ := wordLoop_step (word := subWord) (out := subOut s.cfg.borrowRule) hlen (hi.trans_eq ha.symm)
    rw [← subValue_eq_wordLoop] at hword
    beta_reduce
    rw [hbit, State.sendRsp_word, State.word, State.reg_setReg_same, hword]
    refine ⟨subWord_toNat _ _ _, ?_⟩
    cases s.cfg.borrowRule with
    | topBit => rw [subOut_topBit_word, bitVal_decide]; push_cast; rfl
    | exactBorrow => rw [subOut_exactBorrow, bitVal_decide]; push_cast; rfl

/-- Settles O59: the loop over two equal arrays leaves zero and no borrow, whatever the rule. -/
theorem subtractingARegisterFromItself : Obligations.SubtractingARegisterFromItself := by
  intro s rd ra ha
  refine ⟨_, exec_sub rd ra ra s, (CommandTakes.nothing (.sub rd ra ra)).responded_setReg rd _, ?_⟩
  rw [State.sendRsp_reg, State.reg_setReg_same, subValue_self, ha]

/-! ## The default rules (R127, R135) -/

/-- Settles O60: five runs of the loops on two words. -/
theorem literalRuleCounterexamples : Obligations.LiteralRuleCounterexamples := by
  refine ⟨by decide, fun r => ?_, by decide, by decide, by decide⟩
  cases r with
  | topBit => decide
  | exactBorrow => decide

end Sys2Proof.Machine
end

section
/-! How a command ends and what can stop a run (60_exceptions.md): the statuses of each command, what follows a
response, and the host as the only one that stops a run. -/

namespace Sys2Proof.Machine

variable {i : Instr} {tmp : Temps} {s t u : State} {st : Status} {d : Word}

/-! ## The statuses of each command (R144) -/

/-- PARSE of a whole packet ends with OK, DECODE or OVERFLOW. -/
theorem finishParse_phase (rd : Reg) (text : Str) (s : State) :
    ∃ e, (finishParse rd text s).phase = .resp e 0#64 ∧ (e = .ok ∨ e = .decode ∨ e = .overflow) := by
  cases h : hexparse s.cfg.n s.cfg.chunkRule text with
  | ok v => exact ⟨.ok, by rw [finishParse_ok h]; rfl, .inl rfl⟩
  | decode => exact ⟨.decode, by rw [finishParse_decode h]; rfl, .inr (.inl rfl)⟩
  | overflow => exact ⟨.overflow, by rw [finishParse_overflow h]; rfl, .inr (.inr rfl)⟩

/-- The status of a command that ends is that of the response its move sends. -/
theorem status_eq_of_exec (h : exec i s = .next t) (ht : t.phase = .resp st d) {e : Status} {x : Word}
    (hu : exec i s = .next u) (hresp : u.phase = .resp e x) : st = e := by
  cases hu.symm.trans h
  cases hresp.symm.trans ht
  rfl

/-- A command whose move leaves it in EXEC has not ended. -/
theorem not_resp_of_exec (h : exec i s = .next t) (ht : t.phase = .resp st d) {j : Instr}
    (hu : exec i s = .next u) (hexec : u.phase = .exec j tmp) : False := by
  cases hu.symm.trans h
  cases hexec.symm.trans ht

theorem rdw_status {ra : Reg} {idx : BitVec 16} (h : exec (.rdw ra idx) s = .next t) (ht : t.phase = .resp st d) :
    st = if idx.toNat < s.cfg.n then .ok else .illegal := by
  split
  · next hn => exact status_eq_of_exec h ht (exec_rdw_legal hn) rfl
  · next hn => exact status_eq_of_exec h ht (exec_rdw_illegal (Nat.le_of_not_lt hn)) rfl

theorem wrw_status {rd : Reg} {idx : BitVec 16} (hp : s.phase = .exec i tmp) (h : exec (.wrw rd idx) s = .next t)
    (ht : t.phase = .resp st d) : st = if idx.toNat < s.cfg.n then .ok else .illegal := by
  split
  · next hn =>
    cases hq : s.dinQ with
    | nil => exact (not_resp_of_exec h ht (exec_wrw_waits hn hq) hp).elim
    | cons x q => exact status_eq_of_exec h ht (exec_wrw_takes hn hq) rfl
  · next hn => exact status_eq_of_exec h ht (exec_wrw_illegal (Nat.le_of_not_lt hn)) rfl

theorem parse_status {rd : Reg} (hp : s.phase = .exec i tmp) (h : exec (.parse rd) s = .next t)
    (ht : t.phase = .resp st d) : st = .ok ∨ st = .decode ∨ st = .overflow := by
  by_cases hq : s.hinQ = []
  · exact (not_resp_of_exec h ht (exec_parse_waits hq) hp).elim
  · rcases exec_parse_cases (rd := rd) hq with ⟨text, rest, -, hu⟩ | ⟨text, rest, -, hu⟩
    · obtain ⟨e, hresp, he⟩ := finishParse_phase rd text (s.setHinQ rest)
      rwa [status_eq_of_exec h ht hu hresp]
    · exact (not_resp_of_exec h ht hu rfl).elim

theorem render_status {ra : Reg} (hp : s.phase = .exec i tmp) (h : exec (.render ra) s = .next t)
    (ht : t.phase = .resp st d) : st = .ok := by
  by_cases hs : s.temps = .packetSent
  · by_cases hq : s.houtQ = []
    · exact status_eq_of_exec h ht (exec_render_ends hs hq) rfl
    · exact (not_resp_of_exec h ht (exec_render_waits hs hq) hp).elim
  · exact (not_resp_of_exec h ht (exec_render_sends hs) rfl).elim

/-- Settles O26: each way a command's move can go is a response of a known status, or leaves the command in EXEC. -/
theorem statusesOfEachCommand : Obligations.StatusesOfEachCommand := by
  intro i tmp s t st d hp h ht
  cases i with
  | zero rd => exact status_eq_of_exec h ht (exec_zero rd s) rfl
  | add rd ra rb => exact status_eq_of_exec h ht (exec_add rd ra rb s) rfl
  | sub rd ra rb => exact status_eq_of_exec h ht (exec_sub rd ra rb s) rfl
  | parse rd => exact parse_status hp h ht
  | render ra => exact render_status hp h ht
  | rdw ra idx => exact rdw_status h ht
  | wrw rd idx => exact wrw_status hp h ht

/-! ## After a response (R148, R160(4)) -/

/-- With no response offered a take on `rsp` transfers nothing, whether or not the block answers. -/
theorem State.takeRsp_nil (hq : s.rspQ = []) : s.takeRsp = s := by simp [State.takeRsp, hq]

/-- With no hex-out beat offered a take on `hout` transfers nothing. -/
theorem State.takeHout_nil (hq : s.houtQ = []) : s.takeHout = s := by simp [State.takeHout, hq]

/-- Settles O9: a take transfers the first offered beat or nothing, and in IDLE a running block has `cmd_ready` at 1. -/
theorem takenResponseReturnsToIdle : Obligations.TakenResponseReturnsToIdle := by
  intro s ts
  refine ⟨fun r hts hr _ hq => ?_, fun b q hts hr hq => step_takesHout hr hq hts, fun hts hq => ?_, fun hts hq => ?_,
    fun level hts => step_host hts⟩
  · exact ⟨_, step_takesRsp hr hq hts, rfl, rfl, rfl, fun _ _ => State.reg_congr rfl rfl rfl rfl _, ⟨rfl, rfl, rfl⟩,
      rfl, rfl, rfl, State.cmdReady_of_idle hr rfl⟩
  · calc step s = .next (s.withTurns ts).takeHout := step_host hts
      _ = .next (s.withTurns ts) := congrArg _ (State.takeHout_nil hq)
  · calc step s = .next (s.withTurns ts).takeRsp := step_host hts
      _ = .next (s.withTurns ts) := congrArg _ (State.takeRsp_nil hq)

/-! ## What can stop a run (R147, U3) -/

theorem takeCommand_next (s : State) : ∃ t, takeCommand s = .next t := by
  cases hq : s.cmdQ with
  | nil => exact ⟨_, takeCommand_nil hq⟩
  | cons w rest =>
    cases hd : decode s.cfg.n w with
    | none => exact ⟨_, takeCommand_illegal hq hd⟩
    | some i => rw [takeCommand_legal hq hd]; exact exec_next i _

theorem runPhase_next (s : State) : ∃ t, runPhase s = .next t := by
  cases hp : s.phase with
  | idle => rw [runPhase_idle hp]; exact takeCommand_next s
  | exec i tmp => rw [runPhase_exec hp]; exact exec_next i _
  | resp st d => exact ⟨_, runPhase_resp hp⟩

theorem acceptCommand_next (s : State) : ∃ t, acceptCommand s = .next t := by
  unfold acceptCommand
  split
  · exact ⟨_, rfl⟩
  · split <;> exact ⟨_, rfl⟩

theorem acceptPhase_next (s : State) : ∃ t, acceptPhase s = .next t := by
  unfold acceptPhase
  split
  · exact acceptCommand_next s
  all_goals exact ⟨_, rfl⟩

/-- After the first reset no edge of the clock stops a run. -/
theorem blockMove_next (hb : s.boot ≠ .unreset) : ∃ t, blockMove s = .next t := by
  cases hr : s.rst with
  | true => exact ⟨_, blockMove_reset hr⟩
  | false => rw [blockMove_run hr hb]; exact runPhase_next s

theorem acceptMove_next (hb : s.boot ≠ .unreset) : ∃ t, acceptMove s = .next t := by
  cases hr : s.rst with
  | true => exact ⟨_, acceptMove_reset hr⟩
  | false => rw [acceptMove_run hr hb]; exact acceptPhase_next s

/-- After the first reset a move of the host that stops a run is refused. -/
theorem hostMove_next_or_refused (m : HostMove) (hb : s.boot ≠ .unreset) :
    (∃ t, hostMove m s = .next t) ∨ ∃ r, hostMove m s = .refused r := by
  cases m with
  | offerCmd w =>
    cases hboot : s.boot with
    | unreset => exact absurd hboot hb
    | fresh => exact .inr ⟨.commandBeforeRelease, by simp [hostMove, State.offerCmd, hboot]⟩
    | ready => exact .inl ⟨_, hostMove_offerCmd_ready hboot⟩
  | offerHin b =>
    by_cases hcount : b.count ≤ s.cfg.lanes.count
    · exact .inl ⟨_, hostMove_offerHin_legal hcount⟩
    · exact .inr ⟨.hinCountTooLarge, if_neg hcount⟩
  | dropValid ch | changePayload ch =>
    by_cases hoff : s.offered ch = true
    · exact .inr ⟨_, if_pos hoff⟩
    · exact .inl ⟨s, if_neg hoff⟩
  | offerStale ch => exact .inr ⟨.staleBeat ch, rfl⟩
  | offerDin | takeRsp | takeHout | setRst => exact .inl ⟨_, rfl⟩

/-- Settles O19: an edge of the clock and an idle turn go on, and a move of the host goes on or is refused. -/
theorem onlyTheHostStopsARun : Obligations.OnlyTheHostStopsARun := by
  intro s hb
  rcases hts : s.turns with _ | ⟨turn, ts⟩
  · rw [step_blockTurn (b := s) (by simp [State.blockTurn, hts])]
    exact .inl (blockMove_next hb)
  · cases turn with
    | block =>
      rw [step_blockTurn (b := s.withTurns ts) (by simp [State.blockTurn, hts])]
      exact .inl (blockMove_next hb)
    | accept => rw [step_accept hts]; exact .inl (acceptMove_next hb)
    | idle => exact .inl ⟨_, step_idle hts⟩
    | host m =>
      rw [step_host hts]
      exact (hostMove_next_or_refused (s := s.withTurns ts) m hb).imp_right fun ⟨r, hr⟩ => ⟨m, ts, r, rfl, hr⟩

end Sys2Proof.Machine
end

section
/-! A step by the phase of the block and by the turn: an edge on which the block moves, and one on which it takes at
most a command word (70_reset_and_hazards.md R160, 93_implementation_defined.md U4). -/

namespace Sys2Proof.Machine

variable {i : Instr} {tmp : Temps} {s b : State} {w : CmdWord} {rest : List CmdWord} {st : Status} {d : Word}

/-! ## The block's turn (R160, R43) -/

section BlockTurn

variable (hb : s.blockTurn = some b) (hr : s.canRun)
include hb hr

theorem step_exec (hp : s.phase = .exec i tmp) : step s = exec i b.tick := by
  obtain ⟨hstep, ts, rfl⟩ := step_run hb hr.1 hr.2
  exact hstep.trans (runPhase_exec hp)

theorem step_resp (hp : s.phase = .resp st d) : step s = .next b.tick := by
  obtain ⟨hstep, ts, rfl⟩ := step_run hb hr.1 hr.2
  exact hstep.trans (runPhase_resp hp)

/-- In IDLE with no word offered the block waits. -/
theorem step_noCommand (hp : s.phase = .idle) (hq : s.cmdQ = []) : step s = .next b.tick := by
  obtain ⟨hstep, ts, rfl⟩ := step_run hb hr.1 hr.2
  exact (hstep.trans (runPhase_idle hp)).trans (takeCommand_nil hq)

/-- In IDLE with a word that decodes first on `cmd`, the block takes it and makes the command's first move. -/
theorem step_legal (hp : s.phase = .idle) (hq : s.cmdQ = w :: rest) (hd : decode s.cfg.n w = some i) :
    step s = exec i (b.beginCommand i rest) := by
  obtain ⟨hstep, ts, rfl⟩ := step_run hb hr.1 hr.2
  exact (hstep.trans (runPhase_idle hp)).trans (takeCommand_legal hq hd)

end BlockTurn

/-- Settles O5: in IDLE a running block takes the first offered word. -/
theorem stepRunsTheDecodedCommand : Obligations.StepRunsTheDecodedCommand :=
  fun _ _ _ _ _ hb hr hp hq hd => step_legal hb hr hp hq hd

/-! ## The accept turn (U4) -/

section AcceptTurn

variable {ts : List Turn} (hts : s.turns = .accept :: ts) (hr : s.canRun)
include hts hr

theorem step_accept_run : step s = acceptPhase (s.withTurns ts) :=
  (step_accept hts).trans (acceptMove_run hr.1 hr.2)

theorem step_accept_exec (hp : s.phase = .exec i tmp) : step s = .next (s.withTurns ts).tick := by
  rw [step_accept_run hts hr]
  simp [acceptPhase, hp]

theorem step_accept_resp (hp : s.phase = .resp st d) : step s = .next (s.withTurns ts).tick := by
  rw [step_accept_run hts hr]
  simp [acceptPhase, hp]

/-- In IDLE an accept turn moves as `acceptCommand` says. -/
theorem step_accept_idle (hp : s.phase = .idle) : step s = acceptCommand (s.withTurns ts) := by
  rw [step_accept_run hts hr]
  simp [acceptPhase, hp]

theorem step_accept_noCommand (hp : s.phase = .idle) (hq : s.cmdQ = []) : step s = .next (s.withTurns ts).tick := by
  rw [step_accept_idle hts hr hp]
  simp [acceptCommand, hq]

theorem step_accept_legal (hp : s.phase = .idle) (hq : s.cmdQ = w :: rest) (hd : decode s.cfg.n w = some i) :
    step s = .next ((s.withTurns ts).beginCommand i rest) := by
  rw [step_accept_idle hts hr hp]
  simp [acceptCommand, hq, hd]

theorem step_accept_illegal (hp : s.phase = .idle) (hq : s.cmdQ = w :: rest) (hd : decode s.cfg.n w = none) :
    step s = .next (State.raise { s.withTurns ts with cmdQ := rest, boot := .ready } .illegal) := by
  rw [step_accept_idle hts hr hp]
  simp [acceptCommand, hq, hd]

end AcceptTurn

/-- Settles O6: the phase decides what an edge does, on the block's turn and on an accept turn. -/
theorem stepContinuesByPhase : Obligations.StepContinuesByPhase :=
  ⟨fun _ _ hb hr => ⟨fun _ _ => step_exec hb hr, fun _ _ => step_resp hb hr, step_noCommand hb hr⟩,
    fun _ _ => step_idle,
    fun _ _ hts hr => ⟨fun _ _ => step_accept_exec hts hr, fun _ _ => step_accept_resp hts hr,
      step_accept_noCommand hts hr, fun _ _ _ => step_accept_legal hts hr, fun _ _ => step_accept_illegal hts hr⟩⟩

/-! ## A placed command (log entry 13) -/

theorem State.withFetchWord_canRun (s : State) (nbits k : Nat) : (s.withFetchWord nbits k).canRun := by
  refine ⟨rfl, ?_⟩
  cases hboot : s.boot <;> simp [State.withFetchWord, offerNext, hboot]

theorem State.withFetchWord_cmdQ (s : State) (w : CmdWord) : (s.withFetchWord 32 w.toNat).cmdQ = w :: s.cmdQ := by
  have hw : w.toNat % 2 ^ 32 = w.toNat := Nat.mod_eq_of_lt w.isLt
  simp only [State.withFetchWord, offerNext, hw, BitVec.ofNat_toNat, BitVec.setWidth_eq]

/-- Settles O7: the placed word is first on `cmd` of a running block in IDLE, and it decodes to the command. -/
theorem placedCommandRunsNext : Obligations.PlacedCommandRunsNext := by
  intro s i hi
  have hd : decode s.cfg.n (encode i) = some i := (oneLegalEncodingPerCommand _ _ _).mpr ⟨hi, rfl⟩
  exact step_legal rfl (s.withFetchWord_canRun _ _) rfl (s.withFetchWord_cmdQ _) hd

/-! ## Taking a word apart from executing it (U4, log entry 3) -/

/-- Settles O8: after the accept turn the block is where its one step would have it before the command's first move, and
a second edge adds nothing to the record of edges. -/
theorem takingApartFromExecutingIsUnobservable : Obligations.TakingApartFromExecutingIsUnobservable := by
  intro s a ts hr hp ha
  have hblock : (s.withTurns (.block :: ts)).blockTurn = some (s.withTurns ts) := rfl
  have haccept : (s.withTurns (.accept :: .block :: ts)).turns = .accept :: .block :: ts := rfl
  cases hq : s.cmdQ with
  | nil =>
    cases (step_accept_noCommand haccept hr hp hq).symm.trans ha
    have hedge := step_noCommand (s := (s.withTurns (.block :: ts)).tick) rfl ⟨hr.1, by simp⟩ hp hq
    exact hedge.trans (step_noCommand hblock hr hp hq).symm
  | cons w rest =>
    cases hd : decode s.cfg.n w with
    | none =>
      cases (step_accept_illegal haccept hr hp hq hd).symm.trans ha
      have hedge := step_resp
        (s := State.raise { s.withTurns (.block :: ts) with cmdQ := rest, boot := .ready } .illegal)
        rfl ⟨hr.1, by simp⟩ rfl
      exact hedge.trans (step_illegal hblock hr hp hq hd).symm
    | some i =>
      cases (step_accept_legal haccept hr hp hq hd).symm.trans ha
      have hedge := step_exec (s := (s.withTurns (.block :: ts)).beginCommand i rest) rfl ⟨hr.1, by simp⟩ rfl
      exact hedge.trans (step_legal hblock hr hp hq hd).symm

end Sys2Proof.Machine
end

section
/-! Waiting and progress (70_reset_and_hazards.md R160, R166, R169, R171): a move of a command leaves the state as it is
exactly when the command has no enabled move. -/

namespace Sys2Proof.Machine

variable {i : Instr} {tmp : Temps} {s t b : State}

/-! ## A command without an enabled move waits (R166, R169) -/

theorem exec_waits (hp : s.phase = .exec i tmp) (h : commandEnabled s i tmp = false) : exec i s = .next s := by
  cases i with
  | parse rd => exact exec_parse_waits (by simpa [commandEnabled] using h)
  | render ra =>
    obtain ⟨rfl, hq⟩ : tmp = .packetSent ∧ s.houtQ ≠ [] := by simpa [commandEnabled] using h
    exact exec_render_waits (State.temps_of_exec hp) hq
  | wrw rd idx =>
    obtain ⟨hq, hn⟩ : s.dinQ = [] ∧ idx.toNat < s.cfg.n := by simpa [commandEnabled] using h
    exact exec_wrw_waits hn hq
  | zero | add | sub | rdw => cases h

/-- Settles O17: in IDLE there is no word, in EXEC the command waits, and in RESP the move is the host's. -/
theorem waitingBlockIsStuck : Obligations.WaitingBlockIsStuck := by
  intro s b hb hr he
  obtain ⟨ts, rfl⟩ := blockTurn_eq hb
  cases hp : s.phase with
  | idle => exact step_noCommand hb hr hp (by simpa [State.enabled, hp] using he)
  | exec i tmp =>
    have hwaits : commandEnabled s i tmp = false := by simpa [State.enabled, hp] using he
    exact (step_exec hb hr hp).trans (exec_waits hp hwaits)
  | resp st d => exact step_resp hb hr hp

/-! ## A command with an enabled move makes it (R171) -/

/-- A command that has answered is no longer in EXEC. -/
theorem State.ne_of_resp {st : Status} {d : Word} (hp : s.phase = .exec i tmp) (ht : t.phase = .resp st d) : t ≠ s := by
  rintro rfl
  cases hp.symm.trans ht

/-- `RecvHex` stops before the last offered beat only at the end of a packet. -/
theorem recvHex_incomplete {got text : Str} {q rest : List HexBeat} (h : recvHex got q = ⟨text, false, rest⟩) :
    rest = [] := by
  induction q generalizing got with
  | nil => cases h; rfl
  | cons c q ih =>
    cases hc : c.last with
    | true => simp [recvHex, hc] at h
    | false => exact ih (by simpa [recvHex, hc] using h)

theorem exec_parse_moves {rd : Reg} (hp : s.phase = .exec i tmp) (hq : s.hinQ ≠ []) :
    ∃ t, exec (.parse rd) s = .next t ∧ t ≠ s := by
  rcases exec_parse_cases (rd := rd) hq with ⟨text, rest, -, hexec⟩ | ⟨text, rest, hrecv, hexec⟩
  · obtain ⟨e, hresp, -⟩ := finishParse_phase rd text (s.setHinQ rest)
    exact ⟨_, hexec, State.ne_of_resp hp hresp⟩
  · cases recvHex_incomplete hrecv
    exact ⟨_, hexec, ne_of_apply_ne State.hinQ hq.symm⟩

theorem exec_render_moves {ra : Reg} (hp : s.phase = .exec i tmp) (h : tmp ≠ .packetSent ∨ s.houtQ = []) :
    ∃ t, exec (.render ra) s = .next t ∧ t ≠ s := by
  by_cases ht : tmp = .packetSent
  · have htemps : s.temps = .packetSent := (State.temps_of_exec hp).trans ht
    exact ⟨_, exec_render_ends htemps (h.resolve_left (· ht)), State.ne_of_resp hp rfl⟩
  · refine ⟨_, exec_render_sends (by rwa [State.temps_of_exec hp]), fun heq => ht ?_⟩
    cases hp.symm.trans (congrArg State.phase heq).symm
    rfl

theorem exec_rdw_moves {ra : Reg} {idx : BitVec 16} (hp : s.phase = .exec i tmp) :
    ∃ t, exec (.rdw ra idx) s = .next t ∧ t ≠ s := by
  rcases Nat.lt_or_ge idx.toNat s.cfg.n with hn | hn
  · exact ⟨_, exec_rdw_legal hn, State.ne_of_resp hp rfl⟩
  · exact ⟨_, exec_rdw_illegal hn, State.ne_of_resp hp rfl⟩

theorem exec_wrw_moves {rd : Reg} {idx : BitVec 16} (hp : s.phase = .exec i tmp)
    (h : s.dinQ ≠ [] ∨ s.cfg.n ≤ idx.toNat) : ∃ t, exec (.wrw rd idx) s = .next t ∧ t ≠ s := by
  rcases Nat.lt_or_ge idx.toNat s.cfg.n with hn | hn
  · obtain ⟨x, q, hq⟩ := List.exists_cons_of_ne_nil (h.resolve_right (Nat.not_le.mpr hn))
    exact ⟨_, exec_wrw_takes hn hq, State.ne_of_resp hp rfl⟩
  · exact ⟨_, exec_wrw_illegal hn, State.ne_of_resp hp rfl⟩

theorem exec_moves (hp : s.phase = .exec i tmp) (h : commandEnabled s i tmp = true) :
    ∃ t, exec i s = .next t ∧ t ≠ s := by
  cases i with
  | zero rd => exact ⟨_, exec_zero rd s, State.ne_of_resp hp rfl⟩
  | add rd ra rb => exact ⟨_, exec_add rd ra rb s, State.ne_of_resp hp rfl⟩
  | sub rd ra rb => exact ⟨_, exec_sub rd ra rb s, State.ne_of_resp hp rfl⟩
  | parse rd => exact exec_parse_moves hp (by simpa [commandEnabled] using h)
  | render ra => exact exec_render_moves hp (by simpa [commandEnabled] using h)
  | rdw ra idx => exact exec_rdw_moves hp
  | wrw rd idx => exact exec_wrw_moves hp (by simpa [commandEnabled] using h)

/-- In IDLE with a word offered the block takes it, whether or not it decodes. -/
theorem step_takesCommand {w : CmdWord} {rest : List CmdWord} (hb : s.blockTurn = some b) (hr : s.canRun)
    (hp : s.phase = .idle) (hq : s.cmdQ = w :: rest) : ∃ t, step s = .next t ∧ t.cmdQ = rest := by
  cases hd : decode s.cfg.n w with
  | none => exact ⟨_, step_illegal hb hr hp hq hd, rfl⟩
  | some i =>
    obtain ⟨t, ht⟩ := exec_next i (b.beginCommand i rest)
    exact ⟨t, (step_legal hb hr hp hq hd).trans ht, (exec_move ht).cmdQ_eq⟩

/-- Settles O18: in IDLE the offered word is gone, and in EXEC the command has made its move. -/
theorem enabledBlockMakesProgress : Obligations.EnabledBlockMakesProgress := by
  intro s b hb hr he
  obtain ⟨ts, rfl⟩ := blockTurn_eq hb
  cases hp : s.phase with
  | idle =>
    obtain ⟨w, rest, hq⟩ := List.exists_cons_of_ne_nil (by simpa [State.enabled, hp] using he : s.cmdQ ≠ [])
    obtain ⟨t, hstep, ht⟩ := step_takesCommand hb hr hp hq
    exact ⟨t, hstep, ne_of_apply_ne State.cmdQ (by simp [ht, hq])⟩
  | exec i tmp =>
    have henabled : commandEnabled s i tmp = true := by simpa [State.enabled, hp] using he
    rw [step_exec hb hr hp]
    exact exec_moves hp henabled
  | resp st d => simp [State.enabled, hp] at he

/-! ## PARSE of an unfinished packet (R160(2), R169) -/

/-- Settles O33: without a last beat PARSE gathers every offered beat, and its frame is that of every command. -/
theorem parseGathersAnUnfinishedPacket : Obligations.ParseGathersAnUnfinishedPacket := by
  intro s rd hq hlast
  have hrecv := recvHex_unfinished hlast s.temps.received
  rcases exec_parse_cases (rd := rd) hq with ⟨_, _, hr, -⟩ | ⟨_, _, hr, hexec⟩
  · cases hrecv.symm.trans hr
  · cases hrecv.symm.trans hr
    obtain ⟨-, hcontrol, hdin, -, hhout⟩ := (exec_move hexec).keeps
    exact ⟨_, hexec, rfl, rfl, rfl, fun _ _ => State.reg_congr rfl rfl rfl rfl _, hdin (by simp), hhout (by simp),
      hcontrol⟩

end Sys2Proof.Machine
end

section
/-! The outputs of the block towards the host (30_encoding.md R82, R85, R86, 10_state.md R41), and what the host's
offers do to the queues (70_reset_and_hazards.md R165, R167). -/

namespace Sys2Proof.Machine

variable {s : State}

/-! ## Beats on their wires (R41) -/

theorem HexBeat.dataBus_toNat (l : Lanes) (b : HexBeat) : (b.dataBus l).toNat = b.data.toNat % 2 ^ (8 * l.count) :=
  BitVec.toNat_setWidth _ _

theorem HexBeat.dataBus_toNat_of_fits {l : Lanes} {b : HexBeat} (h : b.fits l) : (b.dataBus l).toNat = b.data.toNat :=
  (HexBeat.dataBus_toNat l b).trans (Nat.mod_eq_of_lt h.1)

theorem HexBeat.countBus_toNat_of_fits {l : Lanes} {b : HexBeat} (h : b.fits l) : (b.countBus l).toNat = b.count := by
  have hcount : b.count < 2 ^ l.countWidth := Nat.lt_of_le_of_lt h.2 (lanes_count_lt l)
  simp [HexBeat.countBus, Nat.mod_eq_of_lt hcount]

/-! ## The outputs while rst = 1 (R161) -/

theorem State.running_of_rst (h : s.rst = true) : s.running = false := by simp [State.running, h]

theorem State.outputs_of_not_running (h : s.running = false) :
    s.cmdReady = false ∧ s.dinReady = false ∧ s.hinReady = false ∧ s.rspValid = false ∧ s.houtValid = false
      ∧ s.takeRsp = s ∧ s.takeHout = s := by
  simp [State.cmdReady, State.dinReady, State.hinReady, State.rspValid, State.houtValid, State.takeRsp, State.takeHout,
    h]

/-! ## The payloads (R82, R85, R86) -/

theorem State.rspPayload_of_not_valid (h : s.rspValid = false) : s.rspStatus = 0#2 ∧ s.rspData = 0#64 := by
  cases hrun : s.running with
  | false => simp [State.rspStatus, State.rspData, hrun]
  | true =>
    have hq : s.rspQ = [] := by simpa [State.rspValid, hrun] using h
    simp [State.rspStatus, State.rspData, hq]

theorem State.houtBeat_of_not_valid (h : s.houtValid = false) : s.houtBeat = ⟨0, 0, false⟩ := by
  cases hrun : s.running with
  | false => simp [State.houtBeat, hrun]
  | true =>
    have hq : s.houtQ = [] := by simpa [State.houtValid, hrun] using h
    simp [State.houtBeat, hq]

theorem State.houtPayload_of_not_valid (h : s.houtValid = false) :
    s.houtBeat = ⟨0, 0, false⟩ ∧ s.houtData = 0 ∧ s.houtCount = 0 ∧ s.houtLast = false := by
  have hbeat := State.houtBeat_of_not_valid h
  simp [State.houtData, State.houtCount, State.houtLast, hbeat, HexBeat.dataBus, HexBeat.countBus]

theorem State.rspPayload_of_valid {b : RspBeat} {q : List RspBeat} (hr : s.canRun) (hq : s.rspQ = b :: q) :
    s.rspValid = true ∧ s.rspData = b.data ∧ s.rspStatus = b.status.code := by
  simp [State.rspValid, State.rspData, State.rspStatus, State.running_of_canRun hr.1 hr.2, hq]

theorem State.houtBeat_of_valid {b : HexBeat} {q : List HexBeat} (hr : s.canRun) (hq : s.houtQ = b :: q) :
    s.houtValid = true ∧ s.houtBeat = b := by
  simp [State.houtValid, State.houtBeat, State.running_of_canRun hr.1 hr.2, hq]

/-- Settles O12: a channel's payload is its first offered beat on its wires, and 0 when its valid is 0. -/
theorem outputsAreZeroWhenNotValid : Obligations.OutputsAreZeroWhenNotValid := by
  intro s
  refine ⟨fun h => State.outputs_of_not_running (State.running_of_rst h), State.rspPayload_of_not_valid,
    State.houtPayload_of_not_valid, fun b q hr hq => ?_, fun b q hr hq => ?_⟩
  · obtain ⟨hvalid, hdata, hstatus⟩ := State.rspPayload_of_valid hr hq
    refine ⟨hvalid, hdata, hstatus.trans ?_⟩
    cases b.status <;> rfl
  · obtain ⟨hvalid, hbeat⟩ := State.houtBeat_of_valid hr hq
    rw [State.houtData, State.houtCount, State.houtLast, hbeat]
    exact ⟨hvalid, rfl, rfl, HexBeat.dataBus_toNat _ b,
      fun h => ⟨HexBeat.dataBus_toNat_of_fits h, HexBeat.countBus_toNat_of_fits h⟩⟩

/-! ## The host's offers (R165, R167) -/

theorem hostMove_offerCmd_fresh {w : CmdWord} (h : s.boot = .fresh) :
    hostMove (.offerCmd w) s = .refused .commandBeforeRelease := by
  simp [hostMove, State.offerCmd, h]

/-- Settles O16: each offer is a move of the host, and the wires carry every character of a `hin` beat. -/
theorem offeredBeatsAreQueued : Obligations.OfferedBeatsAreQueued := by
  intro s ts
  refine ⟨fun w hts hboot => (step_host hts).trans (hostMove_offerCmd_ready hboot),
    fun w hts hboot => (step_host hts).trans (hostMove_offerCmd_fresh hboot), fun x hts => step_host hts,
    fun b hts hcount => ?_⟩
  exact ⟨b.onBus s.cfg.lanes, (step_host hts).trans (hostMove_offerHin_legal hcount), rfl, rfl, HexBeat.onBus_data _ b,
    HexBeat.onBus_chars hcount⟩

end Sys2Proof.Machine
end
